-- ==== Sys2Proof/Config.lean ====
section
/-! DEFINITION. What an implementation of L7CU fixes (spec/00_scope.md R5). No value of the spec is left open after an
instruction (spec/93_implementation_defined.md), so there is no free value here; the order of steps is plain data in State. -/

namespace Sys2Proof

/-- The default of the parameter `W` (R5): the width of the configuration bus, `SHIFT`, `IN_OFF` and `ERR_OFFSET`. A unit
of any other width is a state with another `State.width` (log 1). -/
abbrev Config.defaultW : Nat := 32

/-- The least `W` (R5). -/
abbrev Config.minW : Nat := 16

end Sys2Proof
end

