-- ==== Sys2Proof/Word.lean ====
section
/-! DEFINITION. The machine's words: bytes, configuration words, the symbols of the channels (R71) and the encoded objects
of the ports (R70). -/

namespace Sys2Proof

/-- A data unit: 8 bits (R5 `BYTE`, R8). -/
abbrev Byte := BitVec 8

/-- A configuration word: `W` bits (R5, R55), as the number they are, below `2 ^ W` (log 1). `W` is a parameter of the
unit, so it is an argument of the operations on words and no part of the type. -/
abbrev Word := Nat

/-- A number reduced to `w` bits: "mod 2^W" (R8, R28). -/
def wrap (w n : Nat) : Word :=
  n % 2 ^ w

/-- The predecessor of a word, mod `2 ^ w` (R27). -/
def wrapPred (w n : Nat) : Word :=
  wrap w (n + (2 ^ w - 1))

/-- A configuration register index, `cfg_addr[2:0]` (R74). -/
abbrev CfgIndex := BitVec 3

/-- A symbol, what a channel carries in one transfer (R51, R71). -/
inductive Sym where
  /-- `DATA(d)`: one message byte. -/
  | data (d : Byte)
  /-- `END(s)`: the end of the message; on `out` it carries the status code (R75). -/
  | eom (s : Byte)
deriving DecidableEq, Repr

/-- What the host drives on a port in one action, its bits as they stand on the wires (R70, R71, R73, R74).
The widths are the ports' own; of `wdata` the port has `W` bits, and a write stores no others. -/
inductive HostWord where
  /-- Nine bits on `in_sym` (R71). -/
  | sym (b : BitVec 9)
  /-- One frame: two consecutive `DATA` symbols, the value in bits 15:8, the count in bits 7:0 (R73). -/
  | frame (b : BitVec 16)
  /-- One configuration access: `cfg_we` and `cfg_addr` in `ctl`, the data on `cfg_wdata` (R74). -/
  | cfg (ctl : BitVec 4) (wdata : Word)
deriving DecidableEq, Repr

/-- The formats of the opcode table (R84). The port or field where the bits stand fixes the format; the bits do not. -/
inductive Format where
  /-- `CTRL[2:0]`, 3 bits (R72). -/
  | op
  /-- A channel symbol, 9 bits (R71). -/
  | sym
  /-- A frame, 16 bits (R73). -/
  | frame
  /-- A configuration access, 4 + `W` bits (R74). -/
  | cfg
deriving DecidableEq, Repr

/-- The length in bits of an encoded object of a unit of width `w` (R70). -/
def Format.width (w : Nat) : Format → Nat
  | .op => 3
  | .sym => 9
  | .frame => 16
  | .cfg => 4 + w

/-- The bits of an encoded object in the place where it stands: the field `CTRL[2:0]`, or a port (R70). -/
inductive PortWord where
  /-- In `CTRL[2:0]` (R72). -/
  | op (b : BitVec 3)
  /-- On a port, driven by the host. -/
  | host (w : HostWord)
deriving DecidableEq, Repr

/-- A number said to be an encoded object of a format, its pattern read with the most significant bit first (R71, R73). A
`CFG` object is `w aaa` followed by the `W` data bits (R74): `cfg_wdata` is bits `W-1:0`, `cfg_addr` and `cfg_we` stand
above it (log 9). -/
structure RawWord where
  fmt : Format
  bits : Nat
deriving DecidableEq, Repr

end Sys2Proof
end

