-- ==== Sys2Proof/Syntax.lean ====
section
/-! DEFINITION. The instructions of L7CU: one constructor per row of spec/opcode_table.json (R84). Every operand has the
type of its field; only the data of a write, whose width is the unit's parameter, is checked in WellFormed. -/

namespace Sys2Proof

/-- The 13 rows of the opcode table. The eight operations stand in `CTRL[2:0]`; the others are driven by the host. -/
inductive Instr where
  /-- `CENC`, cipher encode (R94). -/
  | cenc
  /-- `CDEC`, cipher decode (R95). -/
  | cdec
  /-- `RLEC`, RLE compress (R113). -/
  | rlec
  /-- `RLED`, RLE decompress (R133). -/
  | rled
  /-- `MIXE`, cipher encode then compress (R153). -/
  | mixe
  /-- `MIXD`, decompress then cipher decode (R154). -/
  | mixd
  /-- `RSV6`, reserved operation 6 (R160). -/
  | rsv6
  /-- `RSV7`, reserved operation 7 (R160). -/
  | rsv7
  /-- `DATA d`, a data symbol offered on `in` (R71, R85). -/
  | data (d : Byte)
  /-- `END s`, an end symbol offered on `in` (R71, R82, R85). -/
  | endSym (s : Byte)
  /-- `REP V,N`, one frame (R73, R85, R132). -/
  | rep (v n : Byte)
  /-- `CFG_WRITE a, v` (R171). -/
  | cfgWrite (a : CfgIndex) (v : Word)
  /-- `CFG_READ a` (R172). -/
  | cfgRead (a : CfgIndex)
deriving DecidableEq, Repr

end Sys2Proof
end

