-- ==== Sys2Proof/WellFormed.lean ====
section
/-! DEFINITION. Which numbers are encoded objects of a unit of width `w`: those that fit the length of their format (R70).
All patterns of the right length are (R83). And which instructions such a unit has: the data of a write is `W` bits (R74). -/

namespace Sys2Proof

/-- The number fits its format: no 3-bit `OP` above 7, no 9-bit symbol above `0x1FF`, no frame above `0xFFFF`, no access
above `4 + W` bits. -/
def RawWord.wellFormed (w : Nat) (r : RawWord) : Bool :=
  decide (r.bits < 2 ^ r.fmt.width w)

/-- The instruction fits the unit: the data of a write is a word of `w` bits (R74). Every other operand's type is its
field's width. -/
def Instr.wellFormed (w : Nat) (i : Instr) : Bool :=
  match i with
  | .cfgWrite _ v => decide (v < 2 ^ w)
  | .cenc | .cdec | .rlec | .rled | .mixe | .mixd | .rsv6 | .rsv7 | .data _ | .endSym _ | .rep _ _ | .cfgRead _ => true

end Sys2Proof
end

