-- ==== Sys2Proof/Decode.lean ====
section
/-! DEFINITION. The decoder and the encoder, from the encoding tables of spec/30_encoding.md (R71 to R74, R84). -/

namespace Sys2Proof

/-- Format `OP` (R72, R84): the operation that `CTRL[2:0]` selects. -/
def decodeOp (b : BitVec 3) : Instr :=
  match b.toNat with
  | 0 => .cenc
  | 1 => .cdec
  | 2 => .rlec
  | 3 => .rled
  | 4 => .mixe
  | 5 => .mixd
  | 6 => .rsv6
  | _ => .rsv7

/-- Format `SYM` (R71): the symbol that nine bits are; bit 8 is the kind, bits 7:0 the byte. -/
def symOfBits (b : BitVec 9) : Sym :=
  if b.getLsbD 8 then .eom (b.extractLsb' 0 8) else .data (b.extractLsb' 0 8)

/-- Format `SYM` as bits: `DATA(d)` is `d`, `END(s)` is `0x100 + s` (R71). -/
def bitsOfSym : Sym → BitVec 9
  | .data d => 0#1 ++ d
  | .eom s => 1#1 ++ s

/-- The instruction that offering a symbol is (R84, R85). -/
def decodeSym (b : BitVec 9) : Instr :=
  match symOfBits b with
  | .data d => .data d
  | .eom s => .endSym s

/-- Format `FRAME` (R73): `V` in bits 15:8, `N` in bits 7:0. -/
def decodeFrame (b : BitVec 16) : Instr :=
  .rep (b.extractLsb' 8 8) (b.extractLsb' 0 8)

/-- Format `CFG` (R74, R84): bit 3 of the control bits is `cfg_we`, bits 2:0 are `cfg_addr`; the data of a read is ignored. -/
def decodeCfg (ctl : BitVec 4) (wdata : Word) : Instr :=
  if ctl.getLsbD 3 then .cfgWrite (ctl.extractLsb' 0 3) wdata else .cfgRead (ctl.extractLsb' 0 3)

/-- The instruction the host drives in one action. Total: no pattern of a port is illegal (R83). -/
def decodeHostWord : HostWord → Instr
  | .sym b => decodeSym b
  | .frame b => decodeFrame b
  | .cfg ctl wdata => decodeCfg ctl wdata

/-- Why a number is no encoded object of its format (R70). -/
inductive DecodeError where
  /-- More than the 3 bits of `OP`. -/
  | opTooWide
  /-- More than the 9 bits of a symbol. -/
  | symTooWide
  /-- More than the 16 bits of a frame. -/
  | frameTooWide
  /-- More than the `4 + W` bits of an access. -/
  | cfgTooWide
deriving DecidableEq, Repr

/-- The rejection's name for each format. -/
def DecodeError.of : Format → DecodeError
  | .op => .opTooWide
  | .sym => .symTooWide
  | .frame => .frameTooWide
  | .cfg => .cfgTooWide

/-- The instruction that the bits in a place are (R83). -/
def decodePort : PortWord → Instr
  | .op b => decodeOp b
  | .host w => decodeHostWord w

/-- The bits that a number of a format puts in their place, on a unit of width `w` (R70, R74). -/
def RawWord.toPort (w : Nat) (r : RawWord) : PortWord :=
  match r.fmt with
  | .op => .op (BitVec.ofNat 3 r.bits)
  | .sym => .host (.sym (BitVec.ofNat 9 r.bits))
  | .frame => .host (.frame (BitVec.ofNat 16 r.bits))
  | .cfg => .host (.cfg (BitVec.ofNat 4 (r.bits / 2 ^ w)) (wrap w r.bits))

/-- Decoding of a number of a given format for a unit of width `w`, total: a number that does not fit is rejected by
name. -/
def decode (w : Nat) (r : RawWord) : Except DecodeError Instr :=
  if r.wellFormed w then .ok (decodePort (r.toPort w)) else .error (DecodeError.of r.fmt)

/-- The control bits of an access (R74): `cfg_we` and `cfg_addr`, written `w aaa`. -/
def cfgCtl (we : Bool) (a : CfgIndex) : BitVec 4 :=
  BitVec.ofBool we ++ a

/-- The encoding of each instruction for a unit of width `w` (R71 to R74, R84); the ignored data bits of a read are 0. -/
def encode (w : Nat) : Instr → RawWord
  | .cenc => ⟨.op, 0⟩
  | .cdec => ⟨.op, 1⟩
  | .rlec => ⟨.op, 2⟩
  | .rled => ⟨.op, 3⟩
  | .mixe => ⟨.op, 4⟩
  | .mixd => ⟨.op, 5⟩
  | .rsv6 => ⟨.op, 6⟩
  | .rsv7 => ⟨.op, 7⟩
  | .data d => ⟨.sym, d.toNat⟩
  | .endSym s => ⟨.sym, 0x100 + s.toNat⟩
  | .rep v n => ⟨.frame, v.toNat * 256 + n.toNat⟩
  | .cfgWrite a v => ⟨.cfg, (cfgCtl true a).toNat * 2 ^ w + v⟩
  | .cfgRead a => ⟨.cfg, (cfgCtl false a).toNat * 2 ^ w⟩

/-- The bits that a table word puts in their place, from its length and its bits alone. The true lengths 3, 4 and 9 name
the format. In whole bytes a length fits two formats, so the bits decide: 8 bits are an `OP` up to 7 and the control bits of
a write from 8; 16 bits are a symbol up to `0x1FF` and a frame above (DESIGN CHOICE, log 8). The table gives the data of an
access no bits, so they are 0. -/
def tablePort (nbits x : Nat) : Option PortWord :=
  if (nbits = 3 ∨ nbits = 8) ∧ x < 8 then some (.op (BitVec.ofNat 3 x))
  else if (nbits = 4 ∨ nbits = 8) ∧ x < 16 then some (.host (.cfg (BitVec.ofNat 4 x) 0))
  else if (nbits = 9 ∨ nbits = 16) ∧ x < 0x200 then some (.host (.sym (BitVec.ofNat 9 x)))
  else if nbits = 16 ∧ x < 0x10000 then some (.host (.frame (BitVec.ofNat 16 x)))
  else none

/-- The instruction the decoder reads from a table row's word of `nbits` bits, numbered as the table numbers them. -/
def decodeTableWord (nbits w : Nat) : Option Instr :=
  (tablePort nbits w).map decodePort

end Sys2Proof
end

