-- ==== Sys2Proof/Machine/State.lean ====
section
/-! DEFINITION. The state of the machine: the 21 fields of spec/10_state.md R20, and the host's side of the three ports,
which is the model's own (log 3). There is no memory, program counter or register file (R43, R44, R50). -/

namespace Sys2Proof.Machine

/-- The working registers of `RLE-E` (R31 to R35). -/
structure EncRegs where
  /-- `HAVE` (R31): a run is open. -/
  haveRun : Bool
  /-- `CUR` (R32): the value of the open run. -/
  cur : Byte
  /-- `CNT` (R33): its length so far, since the last split. -/
  cnt : Byte
  /-- `FS_N` (R34): frame bytes still to emit. -/
  fsN : BitVec 2
  /-- `FS_V` (R34): the value byte of the held frame. -/
  fsV : Byte
  /-- `FS_C` (R34): the count byte of the held frame. -/
  fsC : Byte
  /-- `E_ENDP` (R35): an output `END` is pending. -/
  endP : Bool
  /-- `E_ST` (R35): the status the pending `END` will carry. -/
  endSt : Byte
deriving DecidableEq, Repr

/-- The working registers of `RLE-D` (R36 to R40). -/
structure DecRegs where
  /-- `PH` (R36): false, the next byte is a value; true, it is a count. -/
  ph : Bool
  /-- `FV` (R37): the value byte of the frame being parsed. -/
  fv : Byte
  /-- `RX_V` (R38): the value being repeated. -/
  rxV : Byte
  /-- `REM` (R39): the repetitions still to emit. -/
  rem : Byte
  /-- `D_ENDP` (R40): an output `END` is pending. -/
  endP : Bool
  /-- `D_ST` (R40): the status the pending `END` will carry. -/
  endSt : Byte
deriving DecidableEq, Repr

/-- The reset values of `RLE-E` (R201). -/
def EncRegs.reset : EncRegs := ⟨false, 0, 0, 0, 0, 0, false, 0⟩

/-- The reset values of `RLE-D` (R201). -/
def DecRegs.reset : DecRegs := ⟨false, 0, 0, 0, false, 0⟩

/-- A configuration access offered on `cfg` (R74, R170). -/
inductive CfgAccess where
  | write (a : CfgIndex) (v : Word)
  | read (a : CfgIndex)
deriving DecidableEq, Repr

/-- One action of the host (R12, R85). -/
inductive HostAction where
  /-- A `WR`, `RD`, `D`, `END` or `REP` line: bits driven on a port. -/
  | word (w : HostWord)
  /-- The `RESET` line (R201). -/
  | reset
  /-- The host consumer sets the level of `out_ready` (R65, R200). -/
  | ready (b : Bool)
deriving DecidableEq, Repr

/-- Whose turn it is (R7): which of the agents that may move does so is open, so `HostSide.sched` says it (log 2). -/
inductive Agent where
  /-- The unit takes the step its operation has enabled. -/
  | unit
  /-- The configuration port performs the oldest access offered. -/
  | port
  /-- The host takes the next action of its script. -/
  | host
deriving DecidableEq, Repr

/-- The host's side of the ports. The MODEL's own fields: the spec keeps the host and the schedule out of the unit's
state (R20), and the model holds them as plain data so that a step is a function of the state (log 3). -/
structure HostSide where
  /-- The host actions still to come, in order (R12, R85). -/
  script : List HostAction
  /-- The symbols offered on `in` and not yet accepted, oldest first (R52, R65). -/
  inPend : List Sym
  /-- The accesses offered on `cfg` and not yet performed, oldest first (R170, R173). -/
  cfgPend : List CfgAccess
  /-- The level of `out_ready` (R200). -/
  outReady : Bool
  /-- The symbols the host consumer has received, oldest first (R53). -/
  out : List Sym
  /-- The values returned on `cfg_rdata`, oldest first (R172). -/
  rdata : List Word
  /-- The agents whose turns come next; when it is empty a default order applies (log 2). -/
  sched : List Agent
deriving DecidableEq, Repr

/-- A silent host: nothing offered, nothing received, the consumer ready. DESIGN CHOICE (log 3): the spec gives the host
no initial state. -/
def HostSide.silent : HostSide := ⟨[], [], [], true, [], [], []⟩

/-- The 21 fields of R20 (seven here, eight in `enc`, six in `dec`), the parameter `W` and the host's side. The fields of
`W` bits are numbers below `2 ^ width`, which the invariant says and every step keeps (log 1). -/
structure State where
  /-- The parameter `W` of R5, at least 16. The MODEL's own field: `W` is no state of the unit (R20), no step changes it,
  and it stands here because a step is a function of the state alone (log 1). -/
  width : Nat
  /-- `OP`, the field `CTRL[2:0]` (R21). -/
  op : BitVec 3
  /-- `SHIFT` (R22): the raw shift as written, two's complement. -/
  shift : Word
  /-- `BUSY` (R24). -/
  busy : Bool
  /-- `DONE` (R25). -/
  done : Bool
  /-- `LAST_STATUS` (R26). -/
  lastStatus : Byte
  /-- `ERR_OFFSET` (R27). -/
  errOffset : Word
  /-- `IN_OFF` (R28): `DATA` symbols accepted in the current message. -/
  inOff : Word
  /-- `RLE-E` (R31 to R35). -/
  enc : EncRegs
  /-- `RLE-D` (R36 to R40). -/
  dec : DecRegs
  /-- The host's side of the ports (the model's own). -/
  host : HostSide
deriving DecidableEq, Repr

/-- A unit of width `w` right after reset, beside a host `h`: every one of the 21 fields 0 (R201). -/
def State.resetWith (w : Nat) (h : HostSide) : State :=
  { width := w, op := 0, shift := 0, busy := false, done := false, lastStatus := 0, errOffset := 0, inOff := 0,
    enc := EncRegs.reset, dec := DecRegs.reset, host := h }

/-- The machine right after reset (R201): a unit of the default width (R5) beside a silent host. -/
def State.reset : State :=
  State.resetWith Config.defaultW HostSide.silent

/-- Reasons a step stops the machine with a fault. There is none: the hardware "has no state from which it cannot
continue" (R184). `MALFORMED_STREAM` and `ILLEGAL_OP` are statuses of messages (R180), reported in next states. -/
inductive Fault where
deriving DecidableEq, Repr

/-- Reasons a step is refused. -/
inductive Refusal where
  /-- Raised by `exec` for an instruction that has no meaning yet; safe. No arm raises it: all 13 rows have one. -/
  | notModelled (mnemonic : String)
deriving DecidableEq, Repr

end Sys2Proof.Machine
end

