-- ==== Sys2Proof/Machine/Operands.lean ====
section
/-! DEFINITION. Operand forms: the effective shift (R10, R23, R76), the character class and substitution of a byte (R78,
R91 to R93), the symbol function of `SCU` (R90), and the values a configuration read returns (R172). -/

namespace Sys2Proof.Machine

/-- The shift residue (R10): the floor remainder modulo 26, never negative. -/
def fmod26 (i : Int) : Fin 26 :=
  ⟨(i % 26).toNat, by omega⟩

/-- `K` of a raw shift of any width (R23, R76): two's complement, then floor modulo 26. -/
def effShift {n : Nat} (v : BitVec n) : Fin 26 :=
  fmod26 v.toInt

/-- `K` of the pattern `v` in a register `SHIFT` of `w` bits (R22, R23). -/
def shiftResidue (w : Nat) (v : Word) : Fin 26 :=
  effShift (BitVec.ofNat w v)

/-- `K` of the state: a function of `SHIFT`, never a second copy (R23). -/
def State.k (s : State) : Fin 26 :=
  shiftResidue s.width s.shift

/-- The character class of a byte (R78, R91). -/
inductive Cls where
  | upper
  | lower
  | other
deriving DecidableEq, Repr

/-- The character-range detector (R91): two range comparisons on the unsigned value. -/
def cls (b : Byte) : Cls :=
  if 0x41 ≤ b.toNat ∧ b.toNat ≤ 0x5A then .upper
  else if 0x61 ≤ b.toNat ∧ b.toNat ≤ 0x7A then .lower
  else .other

/-- The letter at position `p`, counted round the alphabet that starts at `base` (R92, R93, R97): the exact sum, reduced
modulo 26, then narrowed to a byte. -/
def letter (base p : Nat) : Byte :=
  BitVec.ofNat 8 (base + p % 26)

/-- `SUB_ENC(K, b)` (R92). -/
def subEnc (k : Fin 26) (b : Byte) : Byte :=
  match cls b with
  | .upper => letter 0x41 (b.toNat - 0x41 + k.val)
  | .lower => letter 0x61 (b.toNat - 0x61 + k.val)
  | .other => b

/-- `SUB_DEC(K, b)` (R93): 26 is added before `K` is taken away. -/
def subDec (k : Fin 26) (b : Byte) : Byte :=
  match cls b with
  | .upper => letter 0x41 (b.toNat - 0x41 + 26 - k.val)
  | .lower => letter 0x61 (b.toNat - 0x61 + 26 - k.val)
  | .other => b

/-- The direction of `SCU` (R30). -/
inductive Dir where
  | encode
  | decode
deriving DecidableEq, Repr

/-- `sub(DIR, K, b)` (R90). -/
def sub (dir : Dir) (k : Fin 26) (b : Byte) : Byte :=
  match dir with
  | .encode => subEnc k b
  | .decode => subDec k b

/-- The symbol function of `SCU` (R90): a byte is substituted, an `END` crosses unchanged. -/
def scu (dir : Dir) (k : Fin 26) (t : Sym) : Sym :=
  match t with
  | .data b => .data (sub dir k b)
  | .eom st => .eom st

/-- The symbol the selected path receives (R82, R151): the status of an input `END` is ignored, taken as `0x00`. -/
def stripStatus (t : Sym) : Sym :=
  match t with
  | .data b => .data b
  | .eom _ => .eom 0x00

/-- `STATUS` (R29, R172): `LAST_STATUS` in bits 15:8, 0 in bits 7:2, `DONE` in bit 1, `BUSY` in bit 0, 0 above. -/
def State.statusWord (s : State) : Word :=
  (s.lastStatus ++ 0#6 ++ BitVec.ofBool s.done ++ BitVec.ofBool s.busy).toNat

/-- The value a read of index `a` returns (R172, the map of R29). -/
def State.cfgValue (s : State) (a : CfgIndex) : Word :=
  match a.toNat with
  | 0 => s.op.toNat
  | 1 => s.shift
  | 2 => s.statusWord
  | 3 => s.errOffset
  | 4 => s.k.val
  | _ => 0

end Sys2Proof.Machine
end

