-- ==== Sys2Proof/Machine/Flags.lean ====
section
/-! DEFINITION. The status codes (R75) and the top-level bookkeeping of `BUSY`, `DONE`, `LAST_STATUS`, `ERR_OFFSET` and
`IN_OFF` (R24 to R28, R151, R152). -/

namespace Sys2Proof.Machine

/-- `OK` (R75). -/
def statusOk : Byte := 0x00

/-- `MALFORMED_STREAM` (R75, R181). -/
def statusMalformed : Byte := 0x01

/-- `ILLEGAL_OP` (R75, R182). -/
def statusIllegalOp : Byte := 0x02

/-- What every step that accepts a symbol from `in` also does (R151). -/
def State.noteAccept (s : State) (t : Sym) : State :=
  match t with
  | .data _ => { s with busy := true, inOff := wrap s.width (s.inOff + 1) }
  | .eom _ => { s with busy := true }

/-- What every step that emits `END(st)` on `out` also does: message completion (R152, R27). -/
def State.complete (s : State) (st : Byte) : State :=
  { s with
    lastStatus := st
    errOffset := if st = statusMalformed then wrapPred s.width s.inOff else 0
    done := true
    busy := false
    inOff := 0 }

end Sys2Proof.Machine
end

