-- ==== Sys2Proof/Machine/Ops.lean ====
section
/-! DEFINITION. The named operations over the links, the configuration registers and the working registers: `Accept` and
`Emit` of R58, a configuration access (R170 to R176), entering an error (R187), the step rules of `RLE-E` (R114 to R122)
and `RLE-D` (R134 to R141), and the reset event (R201). -/

namespace Sys2Proof.Machine

/-! ### Errors -/

/-- `raise MalformedStream` (R139, R187): the ONE error entry. The pending end status becomes `0x01`, the dangling byte is
discarded. Nothing is saved and no control is transferred; the record is written at the output `END` by `State.complete`.
There is no return from an error: after that `END` the unit is idle (R189). -/
def DecRegs.raiseMalformed (d : DecRegs) : DecRegs :=
  { d with endP := true, endSt := statusMalformed, fv := 0x00, ph := false }

/-! ### The RLE encoder -/

/-- The accept guard of `RLE-E` (R114). -/
def EncRegs.ready (e : EncRegs) : Bool :=
  e.fsN == 0 && !e.endP

/-- Hand the open run to the serializer: the frame `(CUR, CNT)` (R117 to R119). -/
def EncRegs.holdFrame (e : EncRegs) : EncRegs :=
  { e with fsV := e.cur, fsC := e.cnt, fsN := 2 }

/-- The accept rules of `RLE-E` (R115 to R119); the guard R114 is the caller's. -/
def EncRegs.accept (e : EncRegs) (t : Sym) : EncRegs :=
  match t with
  | .data b =>
    if e.haveRun then
      if b = e.cur then
        if e.cnt = 255 then { e.holdFrame with cnt := 1 } else { e with cnt := e.cnt + 1 }
      else { e.holdFrame with cur := b, cnt := 1 }
    else { e with haveRun := true, cur := b, cnt := 1 }
  | .eom st =>
    { (if e.haveRun then e.holdFrame else e) with
      haveRun := false, cur := 0x00, cnt := 0, endP := true, endSt := st }

/-- The emit rules of `RLE-E` (R120 to R122): the symbol and the registers after it, where a rule's guard holds. -/
def EncRegs.emit (e : EncRegs) : Option (Sym × EncRegs) :=
  if e.fsN = 2 then some (.data e.fsV, { e with fsN := 1 })
  else if e.fsN = 1 then some (.data e.fsC, { e with fsN := 0, fsV := 0x00, fsC := 0 })
  else if e.fsN = 0 ∧ e.endP = true then some (.eom e.endSt, { e with endP := false, endSt := 0x00 })
  else none

/-! ### The RLE decoder -/

/-- The accept guard of `RLE-D` (R134). -/
def DecRegs.ready (d : DecRegs) : Bool :=
  d.rem == 0 && !d.endP

/-- The accept rules of `RLE-D` (R135 to R139); the guard R134 is the caller's. -/
def DecRegs.accept (d : DecRegs) (t : Sym) : DecRegs :=
  match t with
  | .data b =>
    if d.ph then
      if b = 0 then { d with fv := 0x00, ph := false }
      else { d with rxV := d.fv, rem := b, fv := 0x00, ph := false }
    else { d with fv := b, ph := true }
  | .eom st => if d.ph then d.raiseMalformed else { d with endP := true, endSt := st }

/-- The emit rules of `RLE-D` (R140, R141). -/
def DecRegs.emit (d : DecRegs) : Option (Sym × DecRegs) :=
  if d.rem = 0 then
    if d.endP then some (.eom d.endSt, { d with endP := false, endSt := 0x00 }) else none
  else some (.data d.rxV, { d with rem := d.rem - 1, rxV := if d.rem = 1 then 0x00 else d.rxV })

/-! ### The links -/

/-- The host producer offers symbols on `in`: they wait, in their order, behind those offered before (R52, R53). -/
def State.offerIn (s : State) (l : List Sym) : State :=
  { s with host := { s.host with inPend := s.host.inPend ++ l } }

/-- `Emit` on `out` (R58): the host consumer receives the symbol; an `END` completes the message (R152). -/
def State.deliver (s : State) (t : Sym) : State :=
  match t with
  | .data b => { s with host := { s.host with out := s.host.out ++ [.data b] } }
  | .eom st => State.complete { s with host := { s.host with out := s.host.out ++ [.eom st] } } st

/-! ### The configuration port -/

/-- The host configurator offers an access: accesses are performed in the order offered (R170). -/
def State.offerCfg (s : State) (c : CfgAccess) : State :=
  { s with host := { s.host with cfgPend := s.host.cfgPend ++ [c] } }

/-- `cfg_ready` (R170, R173): 1 for every read, for a write exactly when `BUSY = 0`. -/
def State.cfgReady (s : State) (c : CfgAccess) : Bool :=
  match c with
  | .read _ => true
  | .write _ _ => !s.busy

/-- The write of `v` to index `a` (R171, R174 to R176): `CTRL` keeps bits 2:0, `SHIFT` all the `W`
bits that the port has, every other index changes nothing. -/
def State.cfgStore (s : State) (a : CfgIndex) (v : Word) : State :=
  match a.toNat with
  | 0 => { s with op := BitVec.ofNat 3 v }
  | 1 => { s with shift := wrap s.width v }
  | _ => s

/-- One access performed (R171, R172): a read returns its value on `cfg_rdata` and changes no register. -/
def State.perform (s : State) (c : CfgAccess) : State :=
  match c with
  | .write a v => s.cfgStore a v
  | .read a => { s with host := { s.host with rdata := s.host.rdata ++ [s.cfgValue a] } }

/-- The port's turn: the oldest access offered is performed if the port is ready for it, and waits otherwise; a read
behind a held write waits too (R170, R173). -/
def State.serveCfg (s : State) : State :=
  match s.host.cfgPend with
  | [] => s
  | c :: rest =>
    if s.cfgReady c then State.perform { s with host := { s.host with cfgPend := rest } } c else s

/-! ### Reset -/

/-- The reset event (R201): all 21 fields take their reset values, whatever the state was; `W` is no field of R20. What
the host has offered and the unit has not taken stays offered, and what it has received stays received (R202, log 15). -/
def State.resetEvent (s : State) : State :=
  State.resetWith s.width s.host

end Sys2Proof.Machine
end

