-- ==== Sys2Proof/Machine/Routing.lean ====
section
/-! DEFINITION. `PIPE` (R150): which unit a symbol reaches under each operation, the steps of the whole unit (R157 to
R160), the ports' view of the guards (R163), symbols driven on `in`, and whose turn comes next (R7). -/

namespace Sys2Proof.Machine

/-- The paths through the unit (R72, R150): the operation as the wiring sees it. -/
inductive Path where
  /-- `in -> SCU -> out` (`CENC`, `CDEC`). -/
  | cipher (dir : Dir)
  /-- `in -> RLE-E -> out`, with `SCU` encoding on the way in if `sub` (`RLEC`, `MIXE`). -/
  | enc (sub : Bool)
  /-- `in -> RLE-D -> out`, with `SCU` decoding on the way out if `sub` (`RLED`, `MIXD`). -/
  | dec (sub : Bool)
  /-- `in -> sink` (`RSV6`, `RSV7`). -/
  | sink
deriving DecidableEq, Repr

/-- The path `OP` selects (R150). -/
def pathOf (op : BitVec 3) : Path :=
  match op.toNat with
  | 0 => .cipher .encode
  | 1 => .cipher .decode
  | 2 => .enc false
  | 3 => .dec false
  | 4 => .enc true
  | 5 => .dec true
  | _ => .sink

/-- `scu(DIR, K, ·)` where the path has `SCU` in it, else the symbol itself (R96). -/
def scuIf (on : Bool) (dir : Dir) (k : Fin 26) (t : Sym) : Sym :=
  if on then scu dir k t else t

/-- `in_ready` for the symbol offered (R163). -/
def State.inReady (s : State) (p : Path) (t : Sym) : Bool :=
  match p with
  | .cipher _ => s.host.outReady
  | .enc _ => s.enc.ready
  | .dec _ => s.dec.ready
  | .sink =>
    match t with
    | .data _ => true
    | .eom _ => s.host.outReady

/-- `out_valid` (R163): the unit offers a symbol on `out`, whatever `out_ready` is. -/
def State.outValid (s : State) (p : Path) : Bool :=
  match p with
  | .cipher _ => !s.host.inPend.isEmpty
  | .enc _ => s.enc.fsN != 0 || s.enc.endP
  | .dec _ => s.dec.rem != 0 || s.dec.endP
  | .sink =>
    match s.host.inPend with
    | .eom _ :: _ => true
    | _ => false

/-- `Accept(t)` on `in` under a path (R151, with the pass of R157, the accept of R158 and R159, the discard and fail of
R160); the guard `in_ready` is the caller's. -/
def State.acceptOn (s : State) (p : Path) (t : Sym) : State :=
  match p with
  | .cipher dir => (s.noteAccept t).deliver (scu dir s.k (stripStatus t))
  | .enc on =>
    { s.noteAccept t with enc := s.enc.accept (scuIf on .encode s.k (stripStatus t)) }
  | .dec _ => { s.noteAccept t with dec := s.dec.accept (stripStatus t) }
  | .sink =>
    match t with
    | .data _ => s.noteAccept t
    | .eom _ => (s.noteAccept t).deliver (.eom statusIllegalOp)

/-- The `in` link's transfer (R52): the oldest symbol offered is accepted if `in_ready` is 1, and waits otherwise. -/
def State.transferIn (s : State) (p : Path) : State :=
  match s.host.inPend with
  | [] => s
  | t :: rest =>
    if s.inReady p t then State.acceptOn { s with host := { s.host with inPend := rest } } p t else s

/-- The host producer drives symbols on `in`: they are offered, and the transfer of R52 happens in the same step where
`in_ready` is 1 for the oldest symbol that waits (DESIGN CHOICE, log 4). One step accepts at most one symbol (R6). -/
def State.drive (s : State) (l : List Sym) : State :=
  (s.offerIn l).transferIn (pathOf s.op)

/-- The symbol a sequential unit has waiting for `out`, and the state after it is taken (the emit steps of R158, R159). -/
def State.emitOn (s : State) (p : Path) : Option State :=
  match p with
  | .cipher _ => none
  | .enc _ =>
    match s.enc.emit with
    | some (t, e) => some (State.deliver { s with enc := e } t)
    | none => none
  | .dec on =>
    match s.dec.emit with
    | some (t, d) => some (State.deliver { s with dec := d } (scuIf on .decode s.k t))
    | none => none
  | .sink => none

/-- `out_sym` while `out_valid` is 1 (R52, R163, R200): what the consumer would receive; without it nothing is specified
(`none`, log 12). -/
def State.outSym (s : State) (p : Path) : Option Sym :=
  match p with
  | .cipher dir => s.host.inPend.head?.map fun t => scu dir s.k (stripStatus t)
  | .enc _ => s.enc.emit.map fun r => r.1
  | .dec on => s.dec.emit.map fun r => scuIf on .decode s.k r.1
  | .sink =>
    match s.host.inPend with
    | .eom _ :: _ => some (.eom statusIllegalOp)
    | _ => none

/-- One step of the whole unit under a path (R157 to R160). A waiting output symbol is emitted when the consumer can take
it; otherwise the oldest symbol offered on `in` is accepted or passed if its guard holds. Where no step is enabled the
unit waits and nothing changes (R193). Accept and emit guards exclude each other (R123, R142). -/
def State.unitStep (s : State) (p : Path) : State :=
  match s.emitOn p with
  | some s' => if s.host.outReady then s' else s
  | none => s.transferIn p

/-- The unit's turn would change something: an emit, accept, pass, discard or fail step is enabled. -/
def State.unitEnabled (s : State) : Bool :=
  match s.emitOn (pathOf s.op) with
  | some _ => s.host.outReady
  | none =>
    match s.host.inPend with
    | [] => false
    | t :: _ => s.inReady (pathOf s.op) t

/-- The port's turn would perform an access. -/
def State.portEnabled (s : State) : Bool :=
  match s.host.cfgPend with
  | [] => false
  | c :: _ => s.cfgReady c

/-- Who moves when the schedule says nothing (DESIGN CHOICE, log 2): a configuration access that can be performed is,
at the first opportunity (R173); then the unit; then the host's script; with nothing to do the unit waits. -/
def State.defaultTurn (s : State) : Agent :=
  if s.portEnabled then .port
  else if s.unitEnabled then .unit
  else if s.host.script.isEmpty then .unit else .host

/-- Whose turn it is, and the state with that turn taken off the schedule. -/
def State.nextTurn (s : State) : Agent × State :=
  match s.host.sched with
  | [] => (s.defaultTurn, s)
  | a :: rest => (a, { s with host := { s.host with sched := rest } })

/-- The host consumer sets `out_ready` (R65). -/
def State.setReady (s : State) (b : Bool) : State :=
  { s with host := { s.host with outReady := b } }

/-- The next action of the host's script, taken off it. -/
def State.nextAction (s : State) : Option (HostAction × State) :=
  match s.host.script with
  | [] => none
  | a :: rest => some (a, { s with host := { s.host with script := rest } })

end Sys2Proof.Machine
end

