-- ==== Sys2Proof/Machine/CipherOps.lean ====
section
/-! DEFINITION. The meanings of the cipher operations `CENC` and `CDEC` (spec/40_shift_cipher.md). The instruction is what
stands in `CTRL[2:0]`; running it is one step of the unit under it (R157). -/

namespace Sys2Proof.Machine

/-- `CENC` (R94, R157): the oldest symbol offered passes to `out`, a byte `b` as `SUB_ENC(K, b)`, the end as `END(0x00)`. -/
def execCenc (s : State) : Host.Outcome State Fault Refusal :=
  .next (s.unitStep (.cipher .encode))

/-- `CDEC` (R95, R157): as `CENC` with `SUB_DEC(K, b)`. -/
def execCdec (s : State) : Host.Outcome State Fault Refusal :=
  .next (s.unitStep (.cipher .decode))

end Sys2Proof.Machine
end

