-- ==== Sys2Proof/Machine/ConfigOps.lean ====
section
/-! DEFINITION. The meanings of the configuration accesses `CFG_WRITE` and `CFG_READ` (spec/44_config_access.md). -/

namespace Sys2Proof.Machine

/-- `CFG_WRITE a, v` (R171, R173 to R176): the access is offered; it is performed at once if no access waits before it and
`BUSY = 0`, and otherwise it is held, not lost. -/
def execCfgWrite (a : CfgIndex) (v : Word) (s : State) : Host.Outcome State Fault Refusal :=
  .next (s.offerCfg (.write a v)).serveCfg

/-- `CFG_READ a` (R172): the access is offered; it is performed at once if no access waits before it (R173). -/
def execCfgRead (a : CfgIndex) (s : State) : Host.Outcome State Fault Refusal :=
  .next (s.offerCfg (.read a)).serveCfg

end Sys2Proof.Machine
end

