-- ==== Sys2Proof/Machine/PipelineOps.lean ====
section
/-! DEFINITION. The meanings of the pipeline operations `MIXE` and `MIXD` and of the reserved operations `RSV6` and `RSV7`
(spec/43_pipeline.md). -/

namespace Sys2Proof.Machine

/-- `MIXE` (R153, R158): one step of `RLE-E`, each accepted byte substituted by `SUB_ENC(K, ·)` on the way in. -/
def execMixe (s : State) : Host.Outcome State Fault Refusal :=
  .next (s.unitStep (.enc true))

/-- `MIXD` (R154, R159): one step of `RLE-D`, each emitted byte substituted by `SUB_DEC(K, ·)` on the way out. -/
def execMixd (s : State) : Host.Outcome State Fault Refusal :=
  .next (s.unitStep (.dec true))

/-- `RSV6` (R79, R160): a byte offered is discarded, an end offered gives `END(0x02)`. -/
def execRsv6 (s : State) : Host.Outcome State Fault Refusal :=
  .next (s.unitStep .sink)

/-- `RSV7` (R79, R160): as `RSV6`. -/
def execRsv7 (s : State) : Host.Outcome State Fault Refusal :=
  .next (s.unitStep .sink)

end Sys2Proof.Machine
end

