-- ==== Sys2Proof/Machine/RleOps.lean ====
section
/-! DEFINITION. The meanings of the run-length operations `RLEC` and `RLED` (spec/41_rle_encoder.md,
spec/42_rle_decoder.md) and of the frame `REP`. -/

namespace Sys2Proof.Machine

/-- `RLEC` (R113, R158): one step of `RLE-E`, `SCU` bypassed. -/
def execRlec (s : State) : Host.Outcome State Fault Refusal :=
  .next (s.unitStep (.enc false))

/-- `RLED` (R133, R159): one step of `RLE-D`, `SCU` bypassed. -/
def execRled (s : State) : Host.Outcome State Fault Refusal :=
  .next (s.unitStep (.dec false))

/-- `REP V,N` (R73, R85): the two lines `D V` and `D N`, driven as one action: `DATA(V)` and `DATA(N)` are offered in that
order, and the oldest symbol that waits is accepted if `in_ready` is 1 (DESIGN CHOICE, log 6). Every further accept, and on a
decoder path the `N` repetitions of R132, are steps of their own (R135 to R137, R140). -/
def execRep (v n : Byte) (s : State) : Host.Outcome State Fault Refusal :=
  .next (s.drive [.data v, .data n])

end Sys2Proof.Machine
end

