-- ==== Sys2Proof/Machine/SymbolOps.lean ====
section
/-! DEFINITION. The meanings of the symbols `DATA` and `END` driven on `in` (R71, R85): the host producer offers the
symbol, and one transfer of R52 happens in the same step where `in_ready` is 1 (DESIGN CHOICE, log 4). -/

namespace Sys2Proof.Machine

/-- `DATA d` (R71, R85): `DATA(d)` is offered on `in` behind those that wait. If the operation's accept guard holds for the
oldest of them, that one is accepted at once (R151, R157 to R160); otherwise all wait (R65). -/
def execData (d : Byte) (s : State) : Host.Outcome State Fault Refusal :=
  .next (s.drive [.data d])

/-- `END st` (R71, R82, R85): the end of the message is offered on `in`; its `st` is ignored by the unit (R151). -/
def execEndSym (st : Byte) (s : State) : Host.Outcome State Fault Refusal :=
  .next (s.drive [.eom st])

end Sys2Proof.Machine
end

