-- ==== Sys2Proof/Machine/Dispatch.lean ====
section
/-! DEFINITION. One arm per instruction: its meaning. -/

namespace Sys2Proof.Machine

def exec (i : Instr) (s : State) : Host.Outcome State Fault Refusal :=
  match i with
  | .cenc => Sys2Proof.Machine.execCenc s
  | .cdec => Sys2Proof.Machine.execCdec s
  | .rlec => Sys2Proof.Machine.execRlec s
  | .rled => Sys2Proof.Machine.execRled s
  | .mixe => Sys2Proof.Machine.execMixe s
  | .mixd => Sys2Proof.Machine.execMixd s
  | .rsv6 => Sys2Proof.Machine.execRsv6 s
  | .rsv7 => Sys2Proof.Machine.execRsv7 s
  | .data d => Sys2Proof.Machine.execData d s
  | .endSym st => Sys2Proof.Machine.execEndSym st s
  | .rep v n => Sys2Proof.Machine.execRep v n s
  | .cfgWrite a v => Sys2Proof.Machine.execCfgWrite a v s
  | .cfgRead a => Sys2Proof.Machine.execCfgRead a s

end Sys2Proof.Machine
end

