-- ==== Sys2Proof/Machine/Step.lean ====
section
/-! DEFINITION. One step of the machine: one agent moves (R6, R7). The unit's turn runs the operation that `CTRL[2:0]`
holds; the host's turn runs the next action of its script; the port's turn performs the oldest access that waits. -/

namespace Sys2Proof.Machine

/-- One step (R6). There is no program counter (R43): an instruction is fetched from `CTRL[2:0]` or from the host's
script. -/
def step (s : State) : Host.Outcome State Fault Refusal :=
  match s.nextTurn with
  | (.unit, s1) => exec (decodeOp s1.op) s1
  | (.port, s1) => .next s1.serveCfg
  | (.host, s1) =>
    match s1.nextAction with
    | none => .next s1
    | some (.word w, s2) => exec (decodeHostWord w) s2
    | some (.reset, s2) => .next s2.resetEvent
    | some (.ready b, s2) => .next (s2.setReady b)

/-- `s` with a host word as the next action of the script, and the host's turn next. -/
def State.placeWord (s : State) (w : HostWord) : State :=
  { s with host := { s.host with script := .word w :: s.host.script, sched := .host :: s.host.sched } }

/-- `s` with an operation selected in `CTRL[2:0]`, and the unit's turn next. -/
def State.placeOp (s : State) (b : BitVec 3) : State :=
  { s with op := b, host := { s.host with sched := .unit :: s.host.sched } }

/-- `s` with a table row's word where the next step fetches it (log 10): an `OP` word in `CTRL[2:0]`, any other at the
head of the host's script. A number that is no table word changes nothing. -/
def State.withFetchWord (s : State) (nbits w : Nat) : State :=
  match tablePort nbits w with
  | none => s
  | some (.op b) => s.placeOp b
  | some (.host x) => s.placeWord x

end Sys2Proof.Machine
end

