-- ==== Sys2Proof/Machine/Reference.lean ====
section
/-! DEFINITION. The reference functions of the spec: `compress` (R111, R112), `decompress` (R131), and the result of a
message for every operation (R11, R162). The step rules do not use them; claims compare the two. -/

namespace Sys2Proof.Machine

/-- The runs of a byte list, left to right: value and length of each maximal run (R111). -/
def runs (l : List Byte) : List (Byte × Nat) :=
  match l with
  | [] => []
  | b :: rest =>
    match runs rest with
    | [] => [(b, 1)]
    | (v, n) :: more => if b = v then (v, n + 1) :: more else (b, 1) :: (v, n) :: more

/-- The frames of one run of length `n ≥ 1` (R112): `q` full frames and the remainder, in closed form. -/
def frames (v : Byte) (n : Nat) : List Byte :=
  (List.replicate ((n - 1) / 255) [v, 255]).flatten ++ [v, BitVec.ofNat 8 (n - 255 * ((n - 1) / 255))]

/-- `compress` (R111). -/
def compress (l : List Byte) : List Byte :=
  (runs l).flatMap fun r => frames r.1 r.2

/-- The expansion of the complete frames of a byte list, in order; a dangling last byte adds nothing (R131, R143). -/
def expandFrames (l : List Byte) : List Byte :=
  match l with
  | v :: n :: rest => List.replicate n.toNat v ++ expandFrames rest
  | _ => []

/-- The result of a message (R11): `Ok` with the output bytes, or `Err` with a status and an offset. -/
inductive Result where
  | ok (bytes : List Byte)
  | err (kind : Byte) (off : Nat)
deriving DecidableEq, Repr

/-- `decompress` (R131). -/
def decompress (l : List Byte) : Result :=
  if l.length % 2 = 0 then .ok (expandFrames l) else .err statusMalformed (l.length - 1)

/-- A substitution applied to the bytes of an `Ok` result; an error passes unchanged (R154, R161). -/
def Result.mapBytes (r : Result) (f : Byte → Byte) : Result :=
  match r with
  | .ok l => .ok (l.map f)
  | .err kind off => .err kind off

/-- `F(OP, K, l)` (R162): the result of the message `l` under an operation. -/
def messageResult (op : BitVec 3) (k : Fin 26) (l : List Byte) : Result :=
  match op.toNat with
  | 0 => .ok (l.map (subEnc k))
  | 1 => .ok (l.map (subDec k))
  | 2 => .ok (compress l)
  | 3 => decompress l
  | 4 => .ok (compress (l.map (subEnc k)))
  | 5 => (decompress l).mapBytes (subDec k)
  | _ => .err statusIllegalOp 0

/-- The status of a message of `n` bytes on a decoder path: an odd length is a malformed stream (R138, R139). -/
def streamStatus (n : Nat) : Byte :=
  if n % 2 = 0 then statusOk else statusMalformed

/-- The bytes the unit emits for a message, void ones included (R94, R95, R124, R143, R145, R153, R154, R160). -/
def emittedBytes (op : BitVec 3) (k : Fin 26) (l : List Byte) : List Byte :=
  match op.toNat with
  | 0 => l.map (subEnc k)
  | 1 => l.map (subDec k)
  | 2 => compress l
  | 3 => expandFrames l
  | 4 => compress (l.map (subEnc k))
  | 5 => (expandFrames l).map (subDec k)
  | _ => []

/-- The status of the output `END` of a message (R75, R180). -/
def emittedStatus (op : BitVec 3) (l : List Byte) : Byte :=
  match op.toNat with
  | 3 | 5 => streamStatus l.length
  | 6 | 7 => statusIllegalOp
  | _ => statusOk

/-- All the symbols the unit emits for a message: its bytes, then the `END` with its status. -/
def emittedSyms (op : BitVec 3) (k : Fin 26) (l : List Byte) : List Sym :=
  (emittedBytes op k l).map .data ++ [.eom (emittedStatus op l)]

/-- The symbols of a message on `in` (R11, R86 `MSG`): its bytes, then an `END`. -/
def messageSyms (l : List Byte) : List Sym :=
  l.map .data ++ [.eom 0x00]

/-- How the host reads a message's result from the symbols it received for it and `ERR_OFFSET` at the `END` (R11): the
bytes if the status is `0x00`, else the status and the offset; `none` if the symbols are no bytes followed by one `END`. -/
def readResult (received : List Sym) (off : Word) : Option Result :=
  match received with
  | [] => none
  | .eom st :: rest =>
    if rest = [] then some (if st = statusOk then .ok [] else .err st off) else none
  | .data b :: rest =>
    match readResult rest off with
    | none => none
    | some (.ok l) => some (.ok (b :: l))
    | some (.err kind o) => some (.err kind o)

end Sys2Proof.Machine
end

