-- ==== Sys2Proof/Safety.lean ====
section
/-! DEFINITION. The vocabulary of claims: the invariants of spec/10_state.md (R35, R36, R40, R41), the idle state (R42),
the end of a run (R12), and runs of one unit on its own (R124, R143). -/

namespace Sys2Proof.Machine

/-- `RLE-E` alone: R41 (a), (b), (c), and R35: the status it holds is always `0x00`. -/
abbrev EncRegs.Inv (e : EncRegs) : Prop :=
  (e.haveRun = false → e.cur = 0 ∧ e.cnt = 0) ∧ (e.haveRun = true → e.cnt ≠ 0) ∧
  e.fsN ≠ 3 ∧ (e.fsN = 0 → e.fsV = 0 ∧ e.fsC = 0) ∧ (e.fsN ≠ 0 → e.fsC ≠ 0) ∧
  (e.endP = true → e.haveRun = false) ∧ e.endSt = 0

/-- `RLE-D` alone: R41 (d), (e), (f), and R40: the status it holds is `0x00` or `0x01`. -/
abbrev DecRegs.Inv (d : DecRegs) : Prop :=
  (d.ph = false → d.fv = 0) ∧ (d.rem = 0 → d.rxV = 0) ∧
  (d.endP = false → d.endSt = 0) ∧ (d.endP = true → d.ph = false) ∧
  (d.endSt = statusOk ∨ d.endSt = statusMalformed)

/-- R41 (i), first half, and R26: the status is one of the three codes. -/
abbrev LegalStatus (st : Byte) : Prop :=
  st = statusOk ∨ st = statusMalformed ∨ st = statusIllegalOp

/-- The width is one the spec allows (R5), and every field of `W` bits holds a word of `W` bits (R20, R22, R27, R28). -/
abbrev State.Fits (s : State) : Prop :=
  Config.minW ≤ s.width ∧ s.shift < 2 ^ s.width ∧ s.errOffset < 2 ^ s.width ∧ s.inOff < 2 ^ s.width

/-- R41 (a) to (i), with R35 and R40, which say what statuses the two units hold, and the widths of R20. -/
abbrev State.Inv (s : State) : Prop :=
  s.Fits ∧
  s.enc.Inv ∧ s.dec.Inv ∧
  (s.op ≠ 2 ∧ s.op ≠ 4 → s.enc = EncRegs.reset) ∧
  (s.op ≠ 3 ∧ s.op ≠ 5 → s.dec = DecRegs.reset) ∧
  (s.busy = false → s.inOff = 0 ∧ s.enc = EncRegs.reset ∧ s.dec = DecRegs.reset) ∧
  LegalStatus s.lastStatus ∧ (s.lastStatus ≠ statusMalformed → s.errOffset = 0)

/-- R36: while `RLE-D` is the selected unit and no end is pending, the phase is the parity of the bytes accepted. -/
abbrev State.PhaseInv (s : State) : Prop :=
  (s.op = 3 ∨ s.op = 5) → s.dec.endP = false → s.dec.ph = s.inOff.testBit 0

/-- The idle state (R42): no message in flight, every datapath register at its reset value. -/
abbrev State.Idle (s : State) : Prop :=
  s.busy = false ∧ s.inOff = 0 ∧ s.enc = EncRegs.reset ∧ s.dec = DecRegs.reset

/-- The unit is quiescent (R163): no frame, repetition or end is waiting for `out`. -/
abbrev State.Quiescent (s : State) : Prop :=
  s.enc.fsN = 0 ∧ s.enc.endP = false ∧ s.dec.rem = 0 ∧ s.dec.endP = false

/-- The run is over (R12): the script is exhausted, every symbol accepted, every access performed, no message in flight. -/
abbrev State.RunOver (s : State) : Prop :=
  s.host.script = [] ∧ s.host.inPend = [] ∧ s.host.cfgPend = [] ∧ s.busy = false

/-- The symbols an instruction offers on `in` (R71, R85). -/
def offered (i : Instr) : List Sym :=
  match i with
  | .data d => [.data d]
  | .endSym st => [.eom st]
  | .rep v n => [.data v, .data n]
  | .cenc | .cdec | .rlec | .rled | .mixe | .mixd | .rsv6 | .rsv7 | .cfgWrite _ _ | .cfgRead _ => []

/-- The accesses an instruction offers on `cfg` (R84). -/
def accesses (i : Instr) : List CfgAccess :=
  match i with
  | .cfgWrite a v => [.write a v]
  | .cfgRead a => [.read a]
  | .cenc | .cdec | .rlec | .rled | .mixe | .mixd | .rsv6 | .rsv7 | .data _ | .endSym _ | .rep _ _ => []

/-- The path an instruction moves symbols on: its own if it is an operation, else the one `OP` selects (R150). -/
def pathUnder (i : Instr) (op : BitVec 3) : Path :=
  match i with
  | .cenc => pathOf 0
  | .cdec => pathOf 1
  | .rlec => pathOf 2
  | .rled => pathOf 3
  | .mixe => pathOf 4
  | .mixd => pathOf 5
  | .rsv6 => pathOf 6
  | .rsv7 => pathOf 7
  | .data _ | .endSym _ | .rep _ _ | .cfgWrite _ _ | .cfgRead _ => pathOf op

/-- The symbols a host action offers on `in`. -/
def HostAction.symbols (a : HostAction) : List Sym :=
  match a with
  | .word w => offered (decodeHostWord w)
  | .reset | .ready _ => []

/-- All the symbols the unit has not accepted yet: those offered, then those the script will offer (R11, R12). -/
def State.stream (s : State) : List Sym :=
  s.host.inPend ++ s.host.script.flatMap HostAction.symbols

/-- The instruction that an access on `cfg` is (R84). -/
def CfgAccess.instr (c : CfgAccess) : Instr :=
  match c with
  | .write a v => .cfgWrite a v
  | .read a => .cfgRead a

/-- `rs` writes `l` as its runs (R111): every length at least 1, neighbours of different values. -/
abbrev RunsOf (l : List Byte) (rs : List (Byte × Nat)) : Prop :=
  (rs.flatMap fun r => List.replicate r.2 r.1) = l ∧ (∀ r ∈ rs, 1 ≤ r.2) ∧ rs.IsChain fun r q => r.1 ≠ q.1

/-- The next thing the machine does is the reset event. -/
abbrev State.ResetIsNext (s : State) : Prop :=
  s.nextTurn.1 = .host ∧ s.host.script.head? = some .reset

/-- `DONE`, `LAST_STATUS` and `ERR_OFFSET` are the same in two states (R194). -/
abbrev State.SameRecord (s t : State) : Prop :=
  t.done = s.done ∧ t.lastStatus = s.lastStatus ∧ t.errOffset = s.errOffset

/-- The guard with which the unit accepts a symbol under the operation in `CTRL` (the `in_ready` column of R163). -/
abbrev State.AcceptGuard (s : State) (t : Sym) : Prop :=
  (s.op = 0 ∨ s.op = 1 → s.host.outReady = true) ∧
  (s.op = 2 ∨ s.op = 4 → s.enc.fsN = 0 ∧ s.enc.endP = false) ∧
  (s.op = 3 ∨ s.op = 5 → s.dec.rem = 0 ∧ s.dec.endP = false) ∧
  (s.op = 6 ∨ s.op = 7 → ∀ st, t = .eom st → s.host.outReady = true)

/-- `u`, reached from an idle state `s`, is before the first symbol of the message that `s` is about to take, with the
configuration of `s`, or inside that message. -/
abbrev State.NotPastMessage (s u : State) : Prop :=
  u.busy = true ∨ u.stream = s.stream ∧ u.op = s.op ∧ u.shift = s.shift

/-- `RLE-E` on its own (R124): emit what it holds, at most `n` symbols, to a receiver that takes everything. -/
def EncRegs.drain (e : EncRegs) (n : Nat) : List Sym × EncRegs :=
  match n with
  | 0 => ([], e)
  | m + 1 =>
    match e.emit with
    | none => ([], e)
    | some (t, e') => (t :: (e'.drain m).1, (e'.drain m).2)

/-- `RLE-E` on its own, fed a list of symbols; it holds at most a frame and an end, three symbols (R53). -/
def EncRegs.feed (e : EncRegs) (l : List Sym) : List Sym × EncRegs :=
  match l with
  | [] => ([], e)
  | t :: rest =>
    let d := (e.accept t).drain 3
    let f := d.2.feed rest
    (d.1 ++ f.1, f.2)

/-- `RLE-D` on its own (R143): emit what it holds, at most `n` symbols. -/
def DecRegs.drain (d : DecRegs) (n : Nat) : List Sym × DecRegs :=
  match n with
  | 0 => ([], d)
  | m + 1 =>
    match d.emit with
    | none => ([], d)
    | some (t, d') => (t :: (d'.drain m).1, (d'.drain m).2)

/-- `RLE-D` on its own, fed a list of symbols; it holds at most 255 repetitions and an end (R39, R53). -/
def DecRegs.feed (d : DecRegs) (l : List Sym) : List Sym × DecRegs :=
  match l with
  | [] => ([], d)
  | t :: rest =>
    let e := (d.accept t).drain 256
    let f := e.2.feed rest
    (e.1 ++ f.1, f.2)

end Sys2Proof.Machine
end

