-- ==== Sys2Proof/Certificates/Slice0/Obligations.lean ====
section
/-! DEFINITION. The statements for the provers. Each docstring says which rule of spec/ it formalises or rests on, and names
the log entry of every choice of the model it rests on. -/

open Sys2Proof Sys2Proof.Machine

/-! ### Encodings -/

/-- R84: words of the opcode table, written out from their encodings, decode to their rows' instructions. -/
def Obligations.OpcodeTableWordsDecode : Prop :=
  decodeOp 0b000#3 = .cenc ∧ decodeOp 0b001#3 = .cdec ∧ decodeOp 0b010#3 = .rlec ∧ decodeOp 0b011#3 = .rled ∧
  decodeOp 0b100#3 = .mixe ∧ decodeOp 0b101#3 = .mixd ∧ decodeOp 0b110#3 = .rsv6 ∧ decodeOp 0b111#3 = .rsv7 ∧
  decodeHostWord (.sym 0b001100001#9) = .data 0x61#8 ∧ decodeHostWord (.sym 0b100000000#9) = .endSym 0x00#8 ∧
  decodeHostWord (.frame 0b0110010000000010#16) = .rep 0x64#8 0x02#8 ∧
  decodeHostWord (.cfg 0b1001#4 0xFFFFFFE9) = .cfgWrite 1#3 0xFFFFFFE9 ∧
  decodeHostWord (.cfg 0b0010#4 0) = .cfgRead 2#3

/-- R70 to R74, R84: no bit of an encoding is dropped, on a unit of any width. That a `CFG` object is one number is R74's
pattern `w aaa` followed by the data bits, read as log 9 says. -/
def Obligations.DecodeOfEncodeIsIdentity : Prop :=
  ∀ (w : Nat) (i : Instr), i.wellFormed w = true → decode w (encode w i) = .ok i

/-- R70, R83: every pattern of the right length is an instruction that the unit has, and a number too wide for its format is
rejected under its format's name. -/
def Obligations.DecodeRejectsExactlyTooWideWords : Prop :=
  ∀ (w : Nat) (r : RawWord),
    (r.bits < 2 ^ r.fmt.width w → ∃ i, decode w r = .ok i ∧ i.wellFormed w = true) ∧
    (2 ^ r.fmt.width w ≤ r.bits → decode w r = .error (DecodeError.of r.fmt))

/-- R71 to R74: a word has one meaning. The encoder gives the decoded word back, but for the data bits of a read, which
R74 ignores. That an access is the one number `cfg_we cfg_addr` above the `W` data bits is the model's reading of R74's
pattern (log 9). -/
def Obligations.EncodeOfDecodeGivesWordBack : Prop :=
  ∀ (w : Nat) (r : RawWord) (i : Instr), decode w r = .ok i →
    encode w i = r ∨
    ∃ (a : CfgIndex) (v : Word), v < 2 ^ w ∧ i = .cfgRead a ∧ r = ⟨.cfg, a.toNat * 2 ^ w + v⟩

/-- R71 to R74: the bits on a port decode as the number they are. In the fourth clause, that an access is the one number
`cfg_we cfg_addr` above the `W` data bits is the model's reading of R74's pattern (log 9). -/
def Obligations.PortWordsDecodeAsTheirNumbers : Prop :=
  ∀ w : Nat,
    (∀ b : BitVec 3, decode w ⟨.op, b.toNat⟩ = .ok (decodeOp b)) ∧
    (∀ b : BitVec 9, decode w ⟨.sym, b.toNat⟩ = .ok (decodeHostWord (.sym b))) ∧
    (∀ b : BitVec 16, decode w ⟨.frame, b.toNat⟩ = .ok (decodeHostWord (.frame b))) ∧
    (∀ (c : BitVec 4) (v : Word), v < 2 ^ w →
      decode w ⟨.cfg, c.toNat * 2 ^ w + v⟩ = .ok (decodeHostWord (.cfg c v)))

/-! ### The step -/

/-- R12, R85: when it is the host's turn and a port word is the next action of its script, the step is `exec` of the
decoded instruction. The second form of the turn is the model's default order (log 2). -/
def Obligations.StepRunsHostWord : Prop :=
  ∀ (s : State) (w : HostWord) (rest : List HostAction),
    s.host.script = .word w :: rest →
    (s.host.sched.head? = some .host ∨ s.host.sched = [] ∧ s.portEnabled = false ∧ s.unitEnabled = false) →
    step s = exec (decodeHostWord w)
      { s with host := { s.host with script := rest, sched := s.host.sched.tail } }

/-- R72, R150: when it is the unit's turn, the step is `exec` of the operation that `CTRL[2:0]` holds. The second form of
the turn is the model's default order (log 2). -/
def Obligations.StepRunsSelectedOperation : Prop :=
  ∀ s : State,
    (s.host.sched.head? = some .unit ∨
      s.host.sched = [] ∧ s.portEnabled = false ∧ (s.unitEnabled = true ∨ s.host.script = [])) →
    step s = exec (decodeOp s.op) { s with host := { s.host with sched := s.host.sched.tail } }

/-- R65, R173, R193: the turns that run no instruction: the consumer sets `out_ready`; the host has no action left; the
port has no access it may perform; and with no turn given and nothing to do, nothing happens. That a script's action sets
the level of `out_ready` is the model's choice (log 17: the spec has no notation for it), and so are the turns (log 2). -/
def Obligations.StepOfOtherTurns : Prop :=
  ∀ s : State,
    (∀ (b : Bool) (rest : List HostAction), s.host.sched.head? = some .host → s.host.script = .ready b :: rest →
      step s = .next
        { s with host := { s.host with script := rest, outReady := b, sched := s.host.sched.tail } }) ∧
    (s.host.sched.head? = some .host → s.host.script = [] →
      step s = .next { s with host := { s.host with sched := s.host.sched.tail } }) ∧
    (s.host.sched.head? = some .port →
      s.host.cfgPend = [] ∨ (∃ a v rest, s.host.cfgPend = .write a v :: rest ∧ s.busy = true) →
      step s = .next { s with host := { s.host with sched := s.host.sched.tail } }) ∧
    (s.host.sched = [] → s.host.script = [] → s.host.cfgPend = [] → s.unitEnabled = false → step s = .next s)

/-- A table word placed where the machine fetches is the instruction the very next step runs, on the state it was placed in,
with `OP` set where the word is an operation. The spec has no fetch (R43): how a word is placed is the model's choice (log
10), and so is which format a table word's bits name (log 8); the formats are those of R72 and R84. -/
def Obligations.PlacedWordRunsNext : Prop :=
  ∀ (s : State) (nbits w : Nat) (i : Instr), decodeTableWord nbits w = some i →
    ∃ t : State, step (s.withFetchWord nbits w) = exec i t ∧ (t = s ∨ ∃ b, i = decodeOp b ∧ t = { s with op := b })

/-- R184: the hardware has no state from which it cannot continue. -/
def Obligations.StepAlwaysAnswersNext : Prop :=
  ∀ s : State, ∃ t : State, step s = .next t

/-! ### Reset -/

/-- R201, R202: the reset event sets every one of the 21 fields to its reset value, whatever the state was; no transfer and
no access happens in it, and symbols offered stay offered. That an access offered stays offered too, and that `W` is no
field of the reset, is the model's inference (log 15, log 1). -/
def Obligations.ResetEventClearsEveryField : Prop :=
  ∀ s : State, s.ResetIsNext →
    step s = .next
      { width := s.width, op := 0, shift := 0, busy := false, done := false, lastStatus := 0x00, errOffset := 0, inOff := 0,
        enc := { haveRun := false, cur := 0x00, cnt := 0, fsN := 0, fsV := 0x00, fsC := 0, endP := false, endSt := 0x00 },
        dec := { ph := false, fv := 0x00, rxV := 0x00, rem := 0, endP := false, endSt := 0x00 },
        host := { s.host with script := s.host.script.tail, sched := s.host.sched.tail } }

/-- R20, R29, R201: right after reset every field of a unit of any width is 0 and so is every configuration register read.
That the machine's own reset state is a unit of 32 bits, the default of R5, beside a silent host is the model's choice
(log 1, log 3). -/
def Obligations.ResetStateIsAllZero : Prop :=
  State.reset = State.resetWith 32 HostSide.silent ∧
  ∀ (w : Nat) (h : HostSide),
    State.resetWith w h =
      { width := w, op := 0, shift := 0, busy := false, done := false, lastStatus := 0x00, errOffset := 0, inOff := 0,
        enc := { haveRun := false, cur := 0x00, cnt := 0, fsN := 0, fsV := 0x00, fsC := 0, endP := false, endSt := 0x00 },
        dec := { ph := false, fv := 0x00, rxV := 0x00, rem := 0, endP := false, endSt := 0x00 },
        host := h } ∧
    ∀ a : CfgIndex, (State.resetWith w h).cfgValue a = 0

/-- After R204: a message sent straight after reset passes unchanged and ends `END(0x00)`. The start state's host, whose
consumer is ready and which gives no turns, and so the number of steps, are the model's choices (log 2, log 3). -/
def Obligations.MessageAfterResetPassesUnchanged : Prop :=
  ∀ (w : Nat) (l : List Byte),
    Sys2Proof.core.run (l.length + 1) (State.resetWith w { HostSide.silent with inPend := messageSyms l }) =
    .next { State.resetWith w { HostSide.silent with out := messageSyms l } with done := true }

/-! ### Invariants -/

/-- The invariant of `StepKeepsInvariant` and the parity of `StepKeepsPhaseParity` hold right after reset, for every width
the spec allows and whatever the host has offered (R5, R41, R42, R201). -/
def Obligations.InvariantHoldsAtReset : Prop :=
  ∀ (w : Nat) (h : HostSide), 16 ≤ w →
    (State.resetWith w h).Inv ∧ (State.resetWith w h).PhaseInv ∧ (State.resetWith w h).Idle

/-- R41 with R35 and R40, and the widths of R20: every step keeps the invariant, from every state that has it. -/
def Obligations.StepKeepsInvariant : Prop :=
  ∀ s t : State, s.Inv → step s = .next t → t.Inv

/-- R41: every state reachable from reset, under every width, every host script and every order of turns, meets (a) to
(i). -/
def Obligations.ReachableStatesMeetInvariant : Prop :=
  ∀ (w : Nat) (h : HostSide) (n : Nat) (t : State), 16 ≤ w →
    Sys2Proof.core.run n (State.resetWith w h) = .next t → t.Inv

/-- R36: while `RLE-D` is selected and no end is pending, `PH` is bit 0 of `IN_OFF`; every step keeps that. -/
def Obligations.StepKeepsPhaseParity : Prop :=
  ∀ s t : State, s.Inv → s.PhaseInv → step s = .next t → t.PhaseInv

/-! ### The configuration port -/

/-- R171, with R174 and R176: a write with nothing before it stores in `CTRL` or `SHIFT`, changes nothing at every other
index, and is held, not lost, while `BUSY = 1`. Nothing else changes. Of `v` the port has `W` bits. -/
def Obligations.CfgWriteStoresOrIsHeld : Prop :=
  ∀ (s : State) (a : CfgIndex) (v : Word), s.host.cfgPend = [] →
    (s.busy = false →
      exec (.cfgWrite a v) s = .next
        (if a = 0 then { s with op := BitVec.ofNat 3 v }
         else if a = 1 then { s with shift := v % 2 ^ s.width } else s)) ∧
    (s.busy = true →
      exec (.cfgWrite a v) s = .next { s with host := { s.host with cfgPend := [.write a v] } })

/-- R170, R173: accesses are performed in the order offered. Behind a held write an access waits; behind one that can be
performed it waits too, and the earlier one is performed, as it would be with nothing behind it. That driving the later
access and performing the earlier one are one step is the model's choice (log 7). -/
def Obligations.CfgAccessesKeepOrder : Prop :=
  ∀ (s : State) (c x : CfgAccess) (rest : List CfgAccess), s.host.cfgPend = c :: rest →
    ((∃ a v, c = .write a v) → s.busy = true →
      exec x.instr s = .next { s with host := { s.host with cfgPend := c :: (rest ++ [x]) } }) ∧
    ((∃ a, c = .read a) ∨ s.busy = false →
      ∀ u : State, exec c.instr { s with host := { s.host with cfgPend := [] } } = .next u →
        exec x.instr s = .next { u with host := { u.host with cfgPend := rest ++ [x] } })

/-- R172: a read is always performed, returns the register of R29, and changes no register. -/
def Obligations.CfgReadReturnsRegister : Prop :=
  ∀ (s : State) (a : CfgIndex), s.host.cfgPend = [] →
    exec (.cfgRead a) s = .next
      { s with host := { s.host with rdata := s.host.rdata ++
          [if a = 0 then s.op.toNat
           else if a = 1 then s.shift
           else if a = 2 then 256 * s.lastStatus.toNat + (if s.done then 2 else 0) + (if s.busy then 1 else 0)
           else if a = 3 then s.errOffset
           else if a = 4 then ((BitVec.ofNat s.width s.shift).toInt % 26).toNat
           else 0] } }

/-- R173: once `BUSY = 0` a held write is performed at the port's turn. That the port comes first where no turn is given
is the model's default order (log 2). -/
def Obligations.HeldWriteRunsWhenBusyClears : Prop :=
  ∀ (s : State) (a : CfgIndex) (v : Word) (rest : List CfgAccess),
    s.host.cfgPend = .write a v :: rest → s.busy = false →
    s.host.sched = [] ∨ s.host.sched.head? = some .port →
    step s = .next
      { s with
        op := if a = 0 then BitVec.ofNat 3 v else s.op
        shift := if a = 1 then v % 2 ^ s.width else s.shift
        host := { s.host with cfgPend := rest, sched := s.host.sched.tail } }

/-- R62 with R21, R22 and R173: no step taken while `BUSY = 1`, but for reset, changes `OP` or `SHIFT`. -/
def Obligations.BusyStepKeepsConfiguration : Prop :=
  ∀ s t : State, s.busy = true → step s = .next t → (t.op = s.op ∧ t.shift = s.shift) ∨ s.ResetIsNext

/-- R194: `DONE`, `LAST_STATUS` and `ERR_OFFSET` change only in a step that emits an `END`, whose status they then record,
and at reset. -/
def Obligations.RecordChangesOnlyAtEndOrReset : Prop :=
  ∀ s t : State, step s = .next t → s.ResetIsNext ∨
    ∃ new, t.host.out = s.host.out ++ new ∧
      ((∀ st, Sym.eom st ∉ new) → s.SameRecord t) ∧
      ∀ early st late, new = early ++ .eom st :: late → (∀ x, Sym.eom x ∉ late) →
        t.done = true ∧ t.lastStatus = st

/-! ### The channels -/

/-- R53, R57, R58, with R6: no instruction loses, duplicates or reorders a symbol. In one step at most one symbol is taken
from `in` and at most one is put on `out`. What is taken is the oldest of what was offered, its guard held, and the state
after is that of its acceptance, which appends to `out` what `out` offered and nothing else; what is emitted is the symbol
that `out` offered to a ready consumer, and without a taken symbol the state after is that of the emit step, so the unit
no longer holds it. With neither, the units, `IN_OFF` and `BUSY` are as before. Of the accesses the oldest is the one
read. -/
def Obligations.SymbolsAreNeitherLostNorReordered : Prop :=
  ∀ (i : Instr) (s u t : State) (p : Path),
    u = s.offerIn (offered i) → p = pathUnder i s.op → exec i s = .next t →
    (∃ taken new, u.host.inPend = taken ++ t.host.inPend ∧ t.host.out = s.host.out ++ new ∧
      taken.length ≤ 1 ∧ new.length ≤ 1 ∧
      (∀ x ∈ taken, u.inReady p x = true ∧
        t = State.acceptOn { u with host := { u.host with inPend := t.host.inPend } } p x) ∧
      (∀ x ∈ new, s.host.outReady = true ∧ u.outSym p = some x ∧ (taken = [] → u.emitOn p = some t)) ∧
      (taken = [] → new = [] →
        t.enc = s.enc ∧ t.dec = s.dec ∧ t.inOff = s.inOff ∧ t.busy = s.busy ∧ s.SameRecord t)) ∧
    (t.host.rdata = s.host.rdata ∨
      ∃ a, (s.host.cfgPend ++ accesses i).head? = some (.read a) ∧
        t.host.rdata = s.host.rdata ++ [s.cfgValue a])

/-- R163: `in_ready` and `out_valid` per `OP`; in a state that meets the invariants a sequential unit has an emit step
exactly when the unit is not quiescent, and such a step is taken as soon as the consumer can take a symbol. -/
def Obligations.PortViewOfGuards : Prop :=
  (∀ (s : State) (t : Sym),
    (s.op = 0 ∨ s.op = 1 → s.inReady (pathOf s.op) t = s.host.outReady ∧
      (s.outValid (pathOf s.op) = true ↔ s.host.inPend ≠ [])) ∧
    (s.op = 2 ∨ s.op = 4 → (s.inReady (pathOf s.op) t = true ↔ s.enc.fsN = 0 ∧ s.enc.endP = false) ∧
      (s.outValid (pathOf s.op) = true ↔ s.enc.fsN ≠ 0 ∨ s.enc.endP = true)) ∧
    (s.op = 3 ∨ s.op = 5 → (s.inReady (pathOf s.op) t = true ↔ s.dec.rem = 0 ∧ s.dec.endP = false) ∧
      (s.outValid (pathOf s.op) = true ↔ s.dec.rem ≠ 0 ∨ s.dec.endP = true)) ∧
    (s.op = 6 ∨ s.op = 7 →
      (s.inReady (pathOf s.op) t = true ↔ (∃ b, t = .data b) ∨ s.host.outReady = true) ∧
      (s.outValid (pathOf s.op) = true ↔ ∃ st rest, s.host.inPend = .eom st :: rest))) ∧
  ∀ s : State, s.Inv →
    (s.emitOn (pathOf s.op) = none ↔ s.Quiescent) ∧
    (¬ s.Quiescent → s.host.outReady = true →
      ∃ t x, exec (decodeOp s.op) s = .next t ∧ s.outSym (pathOf s.op) = some x ∧ t.host.out = s.host.out ++ [x])

/-- R52, for the operations with a sequential unit: while the consumer does not take it, the symbol on `out` stays valid
and unchanged through every step but reset. -/
def Obligations.WaitingOutputSymbolIsHeld : Prop :=
  ∀ (s t : State) (x : Sym), s.Inv → (s.op = 2 ∨ s.op = 3 ∨ s.op = 4 ∨ s.op = 5) → s.host.outReady = false →
    s.outSym (pathOf s.op) = some x → ¬ s.ResetIsNext → step s = .next t →
    t.op = s.op ∧ t.outSym (pathOf t.op) = some x ∧ t.host.out = s.host.out

/-! ### The substitution unit -/

/-- R10: the shift residue is the floor remainder, for every integer, with the rule's own examples. -/
def Obligations.ShiftResidueIsFloorRemainder : Prop :=
  (∀ i : Int, ∃ q : Int, i = 26 * q + (fmod26 i).val) ∧
  fmod26 3 = 3 ∧ fmod26 26 = 0 ∧ fmod26 29 = 3 ∧ fmod26 (-1) = 25 ∧ fmod26 (-23) = 3 ∧ fmod26 (-26) = 0 ∧
  fmod26 (-100) = 4 ∧ fmod26 100 = 22

/-- R91, R92, R93: what `SUB_ENC` and `SUB_DEC` give for each class of byte; decoding by `K` is encoding by
`(26 - K) mod 26`. -/
def Obligations.SubstitutionFormulas : Prop :=
  ∀ (k : Fin 26) (b : Byte),
    (0x41 ≤ b.toNat ∧ b.toNat ≤ 0x5A →
      (subEnc k b).toNat = 0x41 + (b.toNat - 0x41 + k.val) % 26 ∧
      (subDec k b).toNat = 0x41 + (b.toNat - 0x41 + 26 - k.val) % 26) ∧
    (0x61 ≤ b.toNat ∧ b.toNat ≤ 0x7A →
      (subEnc k b).toNat = 0x61 + (b.toNat - 0x61 + k.val) % 26 ∧
      (subDec k b).toNat = 0x61 + (b.toNat - 0x61 + 26 - k.val) % 26) ∧
    (¬ (0x41 ≤ b.toNat ∧ b.toNat ≤ 0x5A) ∧ ¬ (0x61 ≤ b.toNat ∧ b.toNat ≤ 0x7A) →
      subEnc k b = b ∧ subDec k b = b) ∧
    ∀ j : Fin 26, j.val = (26 - k.val) % 26 → subDec k b = subEnc j b

/-- R99: the two substitutions undo each other, byte by byte and message by message, and `SUB_ENC(K, ·)` is a bijection
of each class onto itself. -/
def Obligations.DecodeInvertsEncodeSubstitution : Prop :=
  ∀ k : Fin 26,
    (∀ b : Byte, subDec k (subEnc k b) = b ∧ subEnc k (subDec k b) = b) ∧
    (∀ l : List Byte, (l.map (subEnc k)).map (subDec k) = l) ∧
    ∀ c : Cls, Set.BijOn (subEnc k) { b | cls b = c } { b | cls b = c }

/-- R100: substitution keeps the class of a byte, and every byte that is no letter; so a message without letters passes
unchanged, both ways. -/
def Obligations.SubstitutionKeepsClass : Prop :=
  ∀ k : Fin 26,
    (∀ b : Byte,
      cls (subEnc k b) = cls b ∧ cls (subDec k b) = cls b ∧
      (cls b = .other → subEnc k b = b ∧ subDec k b = b)) ∧
    ∀ l : List Byte, (∀ b ∈ l, cls b = .other) → l.map (subEnc k) = l ∧ l.map (subDec k) = l

/-- R98: two values of `SHIFT` with the same residue are indistinguishable to every instruction that is no access. -/
def Obligations.ShiftAliasesAgree : Prop :=
  ∀ (i : Instr) (s t : State) (v : Word), shiftResidue s.width v = shiftResidue s.width s.shift →
    (∀ a x, i ≠ .cfgWrite a x) → (∀ a, i ≠ .cfgRead a) →
    exec i s = .next t → exec i { s with shift := v } = .next { t with shift := v }

/-! ### The cipher operations -/

/-- R157, with R94, R95, R151 and R152: under `CENC` and `CDEC` a byte offered passes substituted, an end offered gives
`END(0x00)` and completes the message; nothing else changes. -/
def Obligations.CipherOperationsPassSymbols : Prop :=
  ∀ (s : State) (rest : List Sym), s.host.outReady = true →
    (∀ b : Byte, s.host.inPend = .data b :: rest →
      exec .cenc s = .next
        { s with busy := true, inOff := wrap s.width (s.inOff + 1),
                 host := { s.host with inPend := rest, out := s.host.out ++ [.data (subEnc s.k b)] } } ∧
      exec .cdec s = .next
        { s with busy := true, inOff := wrap s.width (s.inOff + 1),
                 host := { s.host with inPend := rest, out := s.host.out ++ [.data (subDec s.k b)] } }) ∧
    (∀ st : Byte, s.host.inPend = .eom st :: rest → ∀ i : Instr, i = .cenc ∨ i = .cdec →
      exec i s = .next
        { s with busy := false, done := true, lastStatus := 0x00, errOffset := 0, inOff := 0,
                 host := { s.host with inPend := rest, out := s.host.out ++ [.eom 0x00] } })

/-- R157, R193: with nothing offered, or the consumer not ready, `CENC` and `CDEC` wait and nothing changes. -/
def Obligations.CipherOperationsWait : Prop :=
  ∀ (s : State) (i : Instr), i = .cenc ∨ i = .cdec → s.host.inPend = [] ∨ s.host.outReady = false →
    exec i s = .next s

/-! ### The encoder operations -/

/-- R115 to R118, with R151 and R158: what `RLEC` and `MIXE` do with a byte offered while the encoder accepts; under
`MIXE` it is the substituted byte `c` that reaches the encoder. Nothing else changes. -/
def Obligations.EncoderAcceptsBytes : Prop :=
  ∀ (s : State) (i : Instr) (b c : Byte) (rest : List Sym),
    i = .rlec ∧ c = b ∨ i = .mixe ∧ c = subEnc (shiftResidue s.width s.shift) b →
    s.enc.fsN = 0 → s.enc.endP = false → s.host.inPend = .data b :: rest →
    exec i s = .next
      { s with
        busy := true
        inOff := wrap s.width (s.inOff + 1)
        host := { s.host with inPend := rest }
        enc :=
          if s.enc.haveRun = false then { s.enc with haveRun := true, cur := c, cnt := 1 }
          else if c ≠ s.enc.cur then
            { s.enc with fsV := s.enc.cur, fsC := s.enc.cnt, fsN := 2, cur := c, cnt := 1 }
          else if s.enc.cnt = 255 then { s.enc with fsV := s.enc.cur, fsC := 255, fsN := 2, cnt := 1 }
          else { s.enc with cnt := s.enc.cnt + 1 } }

/-- R119, with R82, R151 and R158: what `RLEC` and `MIXE` do with an end offered while the encoder accepts; the status the
host drives is ignored. -/
def Obligations.EncoderAcceptsEnd : Prop :=
  ∀ (s : State) (i : Instr) (st : Byte) (rest : List Sym), i = .rlec ∨ i = .mixe →
    s.enc.fsN = 0 → s.enc.endP = false → s.host.inPend = .eom st :: rest →
    exec i s = .next
      { s with
        busy := true
        host := { s.host with inPend := rest }
        enc :=
          { haveRun := false, cur := 0x00, cnt := 0
            fsN := if s.enc.haveRun then 2 else 0
            fsV := if s.enc.haveRun then s.enc.cur else s.enc.fsV
            fsC := if s.enc.haveRun then s.enc.cnt else s.enc.fsC
            endP := true, endSt := 0x00 } }

/-- R120, R121, R122, with R152: what `RLEC` and `MIXE` emit; `SCU` is not on the way out, so a count byte is never
substituted. In a state that meets R41 the encoder is at its reset values after its end. -/
def Obligations.EncoderEmits : Prop :=
  ∀ (s : State) (i : Instr), i = .rlec ∨ i = .mixe → s.host.outReady = true →
    (s.enc.fsN = 2 →
      exec i s = .next
        { s with enc := { s.enc with fsN := 1 },
                 host := { s.host with out := s.host.out ++ [.data s.enc.fsV] } }) ∧
    (s.enc.fsN = 1 →
      exec i s = .next
        { s with enc := { s.enc with fsN := 0, fsV := 0x00, fsC := 0 },
                 host := { s.host with out := s.host.out ++ [.data s.enc.fsC] } }) ∧
    (s.enc.fsN = 0 → s.enc.endP = true →
      exec i s = .next
        { s with enc := { s.enc with endP := false, endSt := 0x00 },
                 lastStatus := s.enc.endSt, errOffset := if s.enc.endSt = 0x01 then wrapPred s.width s.inOff else 0,
                 done := true, busy := false, inOff := 0,
                 host := { s.host with out := s.host.out ++ [.eom s.enc.endSt] } } ∧
      (s.enc.Inv → { s.enc with endP := false, endSt := 0x00 } = EncRegs.reset))

/-! ### The decoder operations -/

/-- R135, R136, R137, with R151 and R159: what `RLED` and `MIXD` do with a byte offered while the decoder accepts: a value
byte is kept, a count byte loads the expander, a count of 0 is skipped without an error. -/
def Obligations.DecoderAcceptsBytes : Prop :=
  ∀ (s : State) (i : Instr) (b : Byte) (rest : List Sym), i = .rled ∨ i = .mixd →
    s.dec.rem = 0 → s.dec.endP = false → s.host.inPend = .data b :: rest →
    exec i s = .next
      { s with
        busy := true
        inOff := wrap s.width (s.inOff + 1)
        host := { s.host with inPend := rest }
        dec :=
          if s.dec.ph = false then { s.dec with fv := b, ph := true }
          else if b = 0 then { s.dec with fv := 0x00, ph := false }
          else { s.dec with rxV := s.dec.fv, rem := b, fv := 0x00, ph := false } }

/-- R138, R139, R187, with R82 and R151: what `RLED` and `MIXD` do with an end offered while the decoder accepts: on a
frame boundary the end is pending with `0x00`, after a value byte with `0x01` and the dangling byte is discarded. -/
def Obligations.DecoderAcceptsEnd : Prop :=
  ∀ (s : State) (i : Instr) (st : Byte) (rest : List Sym), i = .rled ∨ i = .mixd →
    s.dec.rem = 0 → s.dec.endP = false → s.host.inPend = .eom st :: rest →
    exec i s = .next
      { s with
        busy := true
        host := { s.host with inPend := rest }
        dec :=
          if s.dec.ph = false then { s.dec with endP := true, endSt := 0x00 }
          else { s.dec with endP := true, endSt := 0x01, fv := 0x00, ph := false } }

/-- R140, R141, with R152, R154 and R161: what `RLED` and `MIXD` emit: a repetition, substituted under `MIXD`; then the
end with its status, which `SCU` does not change and which is recorded with the offending offset. In a
state that meets R41 the decoder is at its reset values after its end. -/
def Obligations.DecoderEmits : Prop :=
  ∀ (s : State) (i : Instr) (c : Byte),
    i = .rled ∧ c = s.dec.rxV ∨ i = .mixd ∧ c = subDec (shiftResidue s.width s.shift) s.dec.rxV →
    s.host.outReady = true →
    (s.dec.rem ≠ 0 →
      exec i s = .next
        { s with dec := { s.dec with rem := s.dec.rem - 1, rxV := if s.dec.rem = 1 then 0x00 else s.dec.rxV },
                 host := { s.host with out := s.host.out ++ [.data c] } }) ∧
    (s.dec.rem = 0 → s.dec.endP = true →
      exec i s = .next
        { s with dec := { s.dec with endP := false, endSt := 0x00 },
                 lastStatus := s.dec.endSt, errOffset := if s.dec.endSt = 0x01 then wrapPred s.width s.inOff else 0,
                 done := true, busy := false, inOff := 0,
                 host := { s.host with out := s.host.out ++ [.eom s.dec.endSt] } } ∧
      (s.dec.Inv → { s.dec with endP := false, endSt := 0x00 } = DecRegs.reset))

/-- R65, R114, R134, R158, R159, R193: the operations with a sequential unit wait, and nothing changes, while a symbol
waits for a consumer that is not ready, and while nothing waits and nothing is offered. -/
def Obligations.SequentialOperationsWait : Prop :=
  ∀ s : State,
    (∀ i : Instr, i = .rlec ∨ i = .mixe →
      (s.enc.fsN ≠ 0 ∨ s.enc.endP = true) ∧ s.host.outReady = false ∨
        s.enc.fsN = 0 ∧ s.enc.endP = false ∧ s.host.inPend = [] →
      exec i s = .next s) ∧
    (∀ i : Instr, i = .rled ∨ i = .mixd →
      (s.dec.rem ≠ 0 ∨ s.dec.endP = true) ∧ s.host.outReady = false ∨
        s.dec.rem = 0 ∧ s.dec.endP = false ∧ s.host.inPend = [] →
      exec i s = .next s)

/-! ### The reserved operations -/

/-- R160, with R151, R152 and R182: under `RSV6` and `RSV7` a byte is dropped and nothing is emitted, an end gives
`END(0x02)` with offset 0 and leaves the unit ready for the next message, and the end waits for the consumer. -/
def Obligations.ReservedOperationsDiscardAndFail : Prop :=
  ∀ (s : State) (i : Instr) (rest : List Sym), i = .rsv6 ∨ i = .rsv7 →
    (∀ b : Byte, s.host.inPend = .data b :: rest →
      exec i s = .next
        { s with busy := true, inOff := wrap s.width (s.inOff + 1), host := { s.host with inPend := rest } }) ∧
    (∀ st : Byte, s.host.inPend = .eom st :: rest → s.host.outReady = true →
      exec i s = .next
        { s with busy := false, done := true, lastStatus := 0x02, errOffset := 0, inOff := 0,
                 host := { s.host with inPend := rest, out := s.host.out ++ [.eom 0x02] } }) ∧
    (∀ st : Byte, s.host.inPend = .eom st :: rest → s.host.outReady = false → exec i s = .next s) ∧
    (s.host.inPend = [] → exec i s = .next s)

/-! ### Symbols and frames driven on `in` -/

/-- R71, R85, R151, R163: when symbols are driven on `in` and the oldest that waits, driven now or before, is a byte whose
guard holds, it is accepted, by the same step the selected operation takes; it counts in `IN_OFF` and sets `BUSY`, and those
behind it wait. That the offer and this transfer are one step is the model's choice (log 4, for a frame log 6): R85 offers
and R52 makes the transfer a step. -/
def Obligations.DataSymbolAcceptedWhenReady : Prop :=
  ∀ (s : State) (i : Instr) (b : Byte) (rest : List Sym),
    (∃ d, i = .data d) ∨ (∃ st, i = .endSym st) ∨ (∃ v n, i = .rep v n) →
    s.host.inPend ++ offered i = .data b :: rest → s.AcceptGuard (.data b) →
    ∃ t : State, exec i s = .next t ∧
      exec (decodeOp s.op) { s with host := { s.host with inPend := .data b :: rest } } = .next t ∧
      t.busy = true ∧ t.inOff = wrap s.width (s.inOff + 1) ∧ t.width = s.width ∧ t.op = s.op ∧ t.shift = s.shift ∧
      s.SameRecord t ∧ t.host = { s.host with inPend := rest, out := t.host.out }

/-- R71, R82, R85, R151, R152, R163: when symbols are driven on `in` and the oldest that waits, driven now or before, is an
end whose guard holds, it is accepted, whatever its status field; where the operation has no sequential unit the message
completes in the same step. Those behind it wait. That the offer and this transfer are one step is the model's choice (log
4, for a frame log 6): R85 offers and R52 makes the transfer a step. -/
def Obligations.EndSymbolAcceptedWhenReady : Prop :=
  ∀ (s : State) (i : Instr) (st : Byte) (rest : List Sym),
    (∃ d, i = .data d) ∨ (∃ st, i = .endSym st) ∨ (∃ v n, i = .rep v n) →
    s.host.inPend ++ offered i = .eom st :: rest → s.AcceptGuard (.eom st) →
    ∃ t : State, exec i s = .next t ∧
      exec (decodeOp s.op) { s with host := { s.host with inPend := .eom st :: rest } } = .next t ∧
      exec (decodeOp s.op) { s with host := { s.host with inPend := .eom 0x00 :: rest } } = .next t ∧
      t.width = s.width ∧ t.op = s.op ∧ t.shift = s.shift ∧
      (s.op = 2 ∨ s.op = 3 ∨ s.op = 4 ∨ s.op = 5 →
        t.busy = true ∧ t.inOff = s.inOff ∧ s.SameRecord t ∧ t.host = { s.host with inPend := rest }) ∧
      (s.op = 0 ∨ s.op = 1 → t = { s with
        busy := false, done := true, lastStatus := 0x00, errOffset := 0, inOff := 0,
        host := { s.host with inPend := rest, out := s.host.out ++ [.eom 0x00] } }) ∧
      (s.op = 6 ∨ s.op = 7 → t = { s with
        busy := false, done := true, lastStatus := 0x02, errOffset := 0, inOff := 0,
        host := { s.host with inPend := rest, out := s.host.out ++ [.eom 0x02] } })

/-- R52, R53, R65: symbols driven while the oldest one offered cannot be accepted wait on the link behind it, and nothing
else changes. -/
def Obligations.OfferedSymbolsWaitTheirTurn : Prop :=
  ∀ (s : State) (y : Sym) (i : Instr),
    (∃ d, i = .data d) ∨ (∃ st, i = .endSym st) ∨ (∃ v n, i = .rep v n) →
    (s.host.inPend ++ offered i).head? = some y → ¬ s.AcceptGuard y →
    exec i s = .next { s with host := { s.host with inPend := s.host.inPend ++ offered i } }

/-- After R132 (with R81, R154): under `RLED` and `MIXD`, at a frame boundary and with a consumer that takes everything, a
frame and the `N + 1` turns of the unit that follow it append `rep(V, N)` to the output (substituted under `MIXD`), nothing
if `N = 0`, and leave every `RLE-D` register at its value before, whoever moves next. That the frame's first byte is
accepted in the step that drives both is the model's choice (log 6), and the turns are given by the schedule (log 2). -/
def Obligations.RepExpandsFrame : Prop :=
  ∀ (s : State) (v n c : Byte) (turns : List Agent),
    s.op = 3 ∧ c = v ∨ s.op = 5 ∧ c = subDec (shiftResidue s.width s.shift) v →
    s.dec = DecRegs.reset → s.host.inPend = [] → s.host.outReady = true →
    s.host.sched = List.replicate (n.toNat + 1) .unit ++ turns →
    ∃ u : State, exec (.rep v n) s = .next u ∧
      Sys2Proof.core.run (n.toNat + 1) u = .next
        { s with busy := true, inOff := wrap s.width (s.inOff + 2),
                 host := { s.host with sched := turns, out := s.host.out ++ List.replicate n.toNat (.data c) } }

/-- R71, R73, R85: in every state, a frame is its two data symbols in order: the value is driven as `DATA V` drives it, and
the count waits behind it, to be accepted by a later step (log 6). So off a frame boundary the value byte is taken as the
count of the frame in progress, and while repetitions, an end or other symbols are pending both bytes wait. -/
def Obligations.RepIsTwoDataSymbols : Prop :=
  ∀ (s t : State) (v n : Byte), exec (.data v) s = .next t →
    exec (.rep v n) s = .next { t with host := { t.host with inPend := t.host.inPend ++ [.data n] } } ∧
    (s.host.inPend = [] → s.dec.rem = 0 → s.dec.endP = false → s.op = 3 ∨ s.op = 5 →
      t.host.inPend = [] ∧ t.dec = s.dec.accept (.data v))

/-! ### Frames over all instructions -/

/-- R21, R22, R57, R150: an instruction that is no access leaves `W`, `OP`, `SHIFT`, the configuration port, the script, the
schedule and `out_ready` as they were. -/
def Obligations.OnlyAccessesTouchConfiguration : Prop :=
  ∀ (i : Instr) (s t : State), (∀ a v, i ≠ .cfgWrite a v) → (∀ a, i ≠ .cfgRead a) → exec i s = .next t →
    t.width = s.width ∧ t.op = s.op ∧ t.shift = s.shift ∧
    t.host = { s.host with inPend := t.host.inPend, out := t.host.out }

/-- R150, R171, R172: a unit that is not on the path keeps its registers; an access touches neither unit, no flag and
neither channel. -/
def Obligations.UnselectedUnitsKeepRegisters : Prop :=
  ∀ (i : Instr) (s t : State), exec i s = .next t →
    (i ≠ .rlec → i ≠ .mixe → (offered i ≠ [] → s.op ≠ 2 ∧ s.op ≠ 4) → t.enc = s.enc) ∧
    (i ≠ .rled → i ≠ .mixd → (offered i ≠ [] → s.op ≠ 3 ∧ s.op ≠ 5) → t.dec = s.dec) ∧
    ((∃ a v, i = .cfgWrite a v) ∨ (∃ a, i = .cfgRead a) →
      t = { s with op := t.op, shift := t.shift,
                   host := { s.host with cfgPend := t.host.cfgPend, rdata := t.host.rdata } })

/-! ### The reference functions -/

/-- R111: `runs` writes every byte list as its maximal runs, and there is only one such way. -/
def Obligations.RunsAreTheMaximalRuns : Prop :=
  ∀ l : List Byte, RunsOf l (runs l) ∧ ∀ rs, RunsOf l rs → rs = runs l

/-- R112: the frames of one run: `q` full frames and one with the remainder in 1 to 255, so no count is ever 0. -/
def Obligations.LongRunsSplitAt255 : Prop :=
  ∀ (v : Byte) (q r : Nat), 1 ≤ r → r ≤ 255 →
    compress (List.replicate (255 * q + r) v) =
      (List.replicate q [v, (255 : Byte)]).flatten ++ [v, BitVec.ofNat 8 r]

/-- R125: the shape of every output of `compress`, (a) to (e). -/
def Obligations.CompressOutputShape : Prop :=
  ∀ l : List Byte,
    (∀ (j : Nat) (c : Byte), (compress l)[2 * j + 1]? = some c → c ≠ 0) ∧
    (compress l).length % 2 = 0 ∧
    (∀ (j : Nat) (v c : Byte), (compress l)[2 * j]? = some v → (compress l)[2 * j + 1]? = some c →
      (compress l)[2 * j + 2]? = some v → c = 255) ∧
    (compress l).length ≤ 2 * l.length ∧
    ((compress l).length = 2 * l.length ↔ l.IsChain fun a b => a ≠ b) ∧
    decompress (compress l) = .ok l

/-- R144: decompression inverts compression for every byte list, and the converse fails on the rule's own example. -/
def Obligations.DecompressInvertsCompress : Prop :=
  (∀ l : List Byte, decompress (compress l) = .ok l) ∧
  decompress [0x61, 0x01, 0x61, 0x01] = .ok [0x61, 0x61] ∧ compress [0x61, 0x61] = [0x61, 0x02]

/-- R153, its corner case: what `MIXE` emits for a message is what `RLEC` emits for it with every value byte substituted and
every count byte unchanged, and both are results `Ok`. -/
def Obligations.MixeSubstitutesOnlyValueBytes : Prop :=
  ∀ (k j : Fin 26) (l : List Byte),
    (∀ m : Nat,
      (emittedBytes 4 k l)[2 * m]? = ((emittedBytes 2 j l)[2 * m]?).map (subEnc k) ∧
      (emittedBytes 4 k l)[2 * m + 1]? = (emittedBytes 2 j l)[2 * m + 1]?) ∧
    messageResult 4 k l = .ok (emittedBytes 4 k l) ∧ messageResult 2 j l = .ok (emittedBytes 2 j l)

/-- R156: `MIXD` with a shift of the same residue gives back what `MIXE` was given, for every message. -/
def Obligations.PipelineRoundTrip : Prop :=
  ∀ (w : Nat) (v u : Word) (l c : List Byte), shiftResidue w v = shiftResidue w u →
    messageResult 4 (shiftResidue w v) l = .ok c → messageResult 5 (shiftResidue w u) c = .ok l

/-! ### Refinement: the steps and the reference functions -/

/-- R124, R123: `RLE-E` on its own, from reset, turns any message and end into exactly `compress` and that end, and is
then at its reset values. Accept and emit exclude each other, so a receiver's delays change nothing. -/
def Obligations.EncoderRefinesCompress : Prop :=
  (∀ (l : List Byte) (st : Byte),
    EncRegs.reset.feed (l.map .data ++ [.eom st]) = ((compress l).map .data ++ [.eom st], EncRegs.reset)) ∧
  ∀ e : EncRegs, e.fsN ≠ 3 → (e.ready = true ↔ e.emit = none)

/-- R143, R142: `RLE-D` on its own, from reset, turns any message into the expansion of its complete frames and an end
with `0x00` or, for an odd length, `0x01`, and is then at its reset values. -/
def Obligations.DecoderRefinesDecompress : Prop :=
  (∀ l : List Byte,
    DecRegs.reset.feed (l.map .data ++ [.eom 0x00]) =
      ((expandFrames l).map .data ++ [.eom (if l.length % 2 = 0 then 0x00 else 0x01)], DecRegs.reset)) ∧
  ∀ d : DecRegs, d.ready = true ↔ d.emit = none

/-- After R162 (with R11, R42, R59, R62, R173, R205), for every host and every order of turns. From an idle state, follow any
run in which the message it starts is not past and reset does not come: the producer may drive its symbols, one by one or
as frames, at any time, and those of later messages behind them; the consumer may stall; reads are performed and writes
held during the message. Then the output is always the beginning of the message's symbols; once the message has begun, the
configuration is that of the idle state; and when it is over the output is all of them, the unit is idle, the next symbol
is the next message's, and the result read is `F(OP, K, l)`. How a host and its order of turns are written down is the
model's choice (log 2, log 3, log 17). -/
def Obligations.EveryOrderGivesMessageResult : Prop :=
  ∀ (s t : State) (l : List Byte) (st : Byte) (rest : List Sym) (n : Nat),
    s.Idle → s.stream = l.map .data ++ .eom st :: rest →
    (∀ (m : Nat) (u : State), m < n → Sys2Proof.core.run m s = .next u → ¬ u.ResetIsNext ∧ s.NotPastMessage u) →
    Sys2Proof.core.run n s = .next t →
    ∃ new late, t.host.out = s.host.out ++ new ∧ emittedSyms s.op s.k l = new ++ late ∧
      (t.stream ≠ s.stream →
        t.width = s.width ∧ t.op = s.op ∧ t.shift = s.shift ∧
        (t.busy = false →
          late = [] ∧ t.stream = rest ∧ t.Idle ∧ t.done = true ∧
          t.lastStatus = emittedStatus s.op l ∧
          t.errOffset = (if emittedStatus s.op l = 0x01 then wrap s.width (l.length - 1) else 0) ∧
          (l.length ≤ 2 ^ s.width → readResult new t.errOffset = some (messageResult s.op s.k l))))

/-- R162, R214, R42: with a consumer that takes everything the message completes, within `len(input) + len(output) + 2`
steps, in the idle state it started from but for `DONE`, `LAST_STATUS` and `ERR_OFFSET`. The steps are those of the model's
default order, since no turn is given (log 2). -/
def Obligations.MessageCompletesWithinBound : Prop :=
  ∀ (s : State) (l : List Byte) (st : Byte),
    s.Idle → s.host.inPend = l.map .data ++ [.eom st] → s.host.cfgPend = [] → s.host.script = [] →
    s.host.sched = [] → s.host.outReady = true →
    Sys2Proof.core.run (l.length + (emittedBytes s.op (shiftResidue s.width s.shift) l).length + 2) s = .next
      { s with
        done := true
        lastStatus := emittedStatus s.op l
        errOffset := if emittedStatus s.op l = 0x01 then wrap s.width (l.length - 1) else 0
        host := { s.host with inPend := [], out := s.host.out ++ emittedSyms s.op (shiftResidue s.width s.shift) l } }

/-- R12 with R42 and R163: a run that is over has left the unit quiescent and idle, and with no turn given (log 2) nothing
moves any more. -/
def Obligations.FinishedRunStops : Prop :=
  ∀ s : State, s.Inv → s.RunOver → s.Quiescent ∧ s.Idle ∧ (s.host.sched = [] → step s = .next s)

/-! ### The parameter `W` -/

/-- R5, R20, R22, R27 to R29: no step changes `W`, and every configuration register reads as a word of `W` bits. That `W`
stands in State is the model's choice (log 1). -/
def Obligations.WidthIsFixedAndReadsFit : Prop :=
  (∀ s t : State, step s = .next t → t.width = s.width) ∧
  ∀ (s : State) (a : CfgIndex), s.Inv → s.cfgValue a < 2 ^ s.width
end

