-- ==== Sys2Proof/Laws/State.lean ====
section
/-! SUPPORT. What every named update of the state does to every field: one lemma per field per update, true by `rfl`, so
that no proof unfolds a record update. -/

namespace Sys2Proof.Machine

variable (s : State)

/-! ### Accepting a byte (R151) -/

@[simp] theorem State.noteAccept_data_width (b : Byte) : (s.noteAccept (.data b)).width = s.width := rfl
@[simp] theorem State.noteAccept_data_op (b : Byte) : (s.noteAccept (.data b)).op = s.op := rfl
@[simp] theorem State.noteAccept_data_shift (b : Byte) : (s.noteAccept (.data b)).shift = s.shift := rfl
@[simp] theorem State.noteAccept_data_busy (b : Byte) : (s.noteAccept (.data b)).busy = true := rfl
@[simp] theorem State.noteAccept_data_done (b : Byte) : (s.noteAccept (.data b)).done = s.done := rfl
@[simp] theorem State.noteAccept_data_lastStatus (b : Byte) : (s.noteAccept (.data b)).lastStatus = s.lastStatus := rfl
@[simp] theorem State.noteAccept_data_errOffset (b : Byte) : (s.noteAccept (.data b)).errOffset = s.errOffset := rfl
@[simp] theorem State.noteAccept_data_inOff (b : Byte) : (s.noteAccept (.data b)).inOff = wrap s.width (s.inOff + 1) := rfl
@[simp] theorem State.noteAccept_data_enc (b : Byte) : (s.noteAccept (.data b)).enc = s.enc := rfl
@[simp] theorem State.noteAccept_data_dec (b : Byte) : (s.noteAccept (.data b)).dec = s.dec := rfl
@[simp] theorem State.noteAccept_data_host (b : Byte) : (s.noteAccept (.data b)).host = s.host := rfl

/-! ### Accepting an end (R151) -/

@[simp] theorem State.noteAccept_eom_width (st : Byte) : (s.noteAccept (.eom st)).width = s.width := rfl
@[simp] theorem State.noteAccept_eom_op (st : Byte) : (s.noteAccept (.eom st)).op = s.op := rfl
@[simp] theorem State.noteAccept_eom_shift (st : Byte) : (s.noteAccept (.eom st)).shift = s.shift := rfl
@[simp] theorem State.noteAccept_eom_busy (st : Byte) : (s.noteAccept (.eom st)).busy = true := rfl
@[simp] theorem State.noteAccept_eom_done (st : Byte) : (s.noteAccept (.eom st)).done = s.done := rfl
@[simp] theorem State.noteAccept_eom_lastStatus (st : Byte) : (s.noteAccept (.eom st)).lastStatus = s.lastStatus := rfl
@[simp] theorem State.noteAccept_eom_errOffset (st : Byte) : (s.noteAccept (.eom st)).errOffset = s.errOffset := rfl
@[simp] theorem State.noteAccept_eom_inOff (st : Byte) : (s.noteAccept (.eom st)).inOff = s.inOff := rfl
@[simp] theorem State.noteAccept_eom_enc (st : Byte) : (s.noteAccept (.eom st)).enc = s.enc := rfl
@[simp] theorem State.noteAccept_eom_dec (st : Byte) : (s.noteAccept (.eom st)).dec = s.dec := rfl
@[simp] theorem State.noteAccept_eom_host (st : Byte) : (s.noteAccept (.eom st)).host = s.host := rfl

/-! ### Message completion (R152) -/

@[simp] theorem State.complete_width (st : Byte) : (s.complete st).width = s.width := rfl
@[simp] theorem State.complete_op (st : Byte) : (s.complete st).op = s.op := rfl
@[simp] theorem State.complete_shift (st : Byte) : (s.complete st).shift = s.shift := rfl
@[simp] theorem State.complete_busy (st : Byte) : (s.complete st).busy = false := rfl
@[simp] theorem State.complete_done (st : Byte) : (s.complete st).done = true := rfl
@[simp] theorem State.complete_lastStatus (st : Byte) : (s.complete st).lastStatus = st := rfl
@[simp] theorem State.complete_errOffset (st : Byte) : (s.complete st).errOffset = if st = statusMalformed then wrapPred s.width s.inOff else 0 := rfl
@[simp] theorem State.complete_inOff (st : Byte) : (s.complete st).inOff = 0 := rfl
@[simp] theorem State.complete_enc (st : Byte) : (s.complete st).enc = s.enc := rfl
@[simp] theorem State.complete_dec (st : Byte) : (s.complete st).dec = s.dec := rfl
@[simp] theorem State.complete_host (st : Byte) : (s.complete st).host = s.host := rfl

/-! ### Offering symbols on `in` -/

@[simp] theorem State.offerIn_width (l : List Sym) : (s.offerIn l).width = s.width := rfl
@[simp] theorem State.offerIn_op (l : List Sym) : (s.offerIn l).op = s.op := rfl
@[simp] theorem State.offerIn_shift (l : List Sym) : (s.offerIn l).shift = s.shift := rfl
@[simp] theorem State.offerIn_busy (l : List Sym) : (s.offerIn l).busy = s.busy := rfl
@[simp] theorem State.offerIn_done (l : List Sym) : (s.offerIn l).done = s.done := rfl
@[simp] theorem State.offerIn_lastStatus (l : List Sym) : (s.offerIn l).lastStatus = s.lastStatus := rfl
@[simp] theorem State.offerIn_errOffset (l : List Sym) : (s.offerIn l).errOffset = s.errOffset := rfl
@[simp] theorem State.offerIn_inOff (l : List Sym) : (s.offerIn l).inOff = s.inOff := rfl
@[simp] theorem State.offerIn_enc (l : List Sym) : (s.offerIn l).enc = s.enc := rfl
@[simp] theorem State.offerIn_dec (l : List Sym) : (s.offerIn l).dec = s.dec := rfl
@[simp] theorem State.offerIn_host (l : List Sym) : (s.offerIn l).host = { s.host with inPend := s.host.inPend ++ l } := rfl

/-! ### Delivering a byte on `out` -/

@[simp] theorem State.deliver_data_width (b : Byte) : (s.deliver (.data b)).width = s.width := rfl
@[simp] theorem State.deliver_data_op (b : Byte) : (s.deliver (.data b)).op = s.op := rfl
@[simp] theorem State.deliver_data_shift (b : Byte) : (s.deliver (.data b)).shift = s.shift := rfl
@[simp] theorem State.deliver_data_busy (b : Byte) : (s.deliver (.data b)).busy = s.busy := rfl
@[simp] theorem State.deliver_data_done (b : Byte) : (s.deliver (.data b)).done = s.done := rfl
@[simp] theorem State.deliver_data_lastStatus (b : Byte) : (s.deliver (.data b)).lastStatus = s.lastStatus := rfl
@[simp] theorem State.deliver_data_errOffset (b : Byte) : (s.deliver (.data b)).errOffset = s.errOffset := rfl
@[simp] theorem State.deliver_data_inOff (b : Byte) : (s.deliver (.data b)).inOff = s.inOff := rfl
@[simp] theorem State.deliver_data_enc (b : Byte) : (s.deliver (.data b)).enc = s.enc := rfl
@[simp] theorem State.deliver_data_dec (b : Byte) : (s.deliver (.data b)).dec = s.dec := rfl
@[simp] theorem State.deliver_data_host (b : Byte) : (s.deliver (.data b)).host = { s.host with out := s.host.out ++ [.data b] } := rfl

/-! ### Delivering an end on `out` -/

@[simp] theorem State.deliver_eom_width (st : Byte) : (s.deliver (.eom st)).width = s.width := rfl
@[simp] theorem State.deliver_eom_op (st : Byte) : (s.deliver (.eom st)).op = s.op := rfl
@[simp] theorem State.deliver_eom_shift (st : Byte) : (s.deliver (.eom st)).shift = s.shift := rfl
@[simp] theorem State.deliver_eom_busy (st : Byte) : (s.deliver (.eom st)).busy = false := rfl
@[simp] theorem State.deliver_eom_done (st : Byte) : (s.deliver (.eom st)).done = true := rfl
@[simp] theorem State.deliver_eom_lastStatus (st : Byte) : (s.deliver (.eom st)).lastStatus = st := rfl
@[simp] theorem State.deliver_eom_errOffset (st : Byte) : (s.deliver (.eom st)).errOffset = if st = statusMalformed then wrapPred s.width s.inOff else 0 := rfl
@[simp] theorem State.deliver_eom_inOff (st : Byte) : (s.deliver (.eom st)).inOff = 0 := rfl
@[simp] theorem State.deliver_eom_enc (st : Byte) : (s.deliver (.eom st)).enc = s.enc := rfl
@[simp] theorem State.deliver_eom_dec (st : Byte) : (s.deliver (.eom st)).dec = s.dec := rfl
@[simp] theorem State.deliver_eom_host (st : Byte) : (s.deliver (.eom st)).host = { s.host with out := s.host.out ++ [.eom st] } := rfl

/-! ### Offering an access on `cfg` -/

@[simp] theorem State.offerCfg_width (c : CfgAccess) : (s.offerCfg c).width = s.width := rfl
@[simp] theorem State.offerCfg_op (c : CfgAccess) : (s.offerCfg c).op = s.op := rfl
@[simp] theorem State.offerCfg_shift (c : CfgAccess) : (s.offerCfg c).shift = s.shift := rfl
@[simp] theorem State.offerCfg_busy (c : CfgAccess) : (s.offerCfg c).busy = s.busy := rfl
@[simp] theorem State.offerCfg_done (c : CfgAccess) : (s.offerCfg c).done = s.done := rfl
@[simp] theorem State.offerCfg_lastStatus (c : CfgAccess) : (s.offerCfg c).lastStatus = s.lastStatus := rfl
@[simp] theorem State.offerCfg_errOffset (c : CfgAccess) : (s.offerCfg c).errOffset = s.errOffset := rfl
@[simp] theorem State.offerCfg_inOff (c : CfgAccess) : (s.offerCfg c).inOff = s.inOff := rfl
@[simp] theorem State.offerCfg_enc (c : CfgAccess) : (s.offerCfg c).enc = s.enc := rfl
@[simp] theorem State.offerCfg_dec (c : CfgAccess) : (s.offerCfg c).dec = s.dec := rfl
@[simp] theorem State.offerCfg_host (c : CfgAccess) : (s.offerCfg c).host = { s.host with cfgPend := s.host.cfgPend ++ [c] } := rfl

/-! ### The reset event (R201) -/

@[simp] theorem State.resetEvent_width : (s.resetEvent).width = s.width := rfl
@[simp] theorem State.resetEvent_op : (s.resetEvent).op = 0 := rfl
@[simp] theorem State.resetEvent_shift : (s.resetEvent).shift = 0 := rfl
@[simp] theorem State.resetEvent_busy : (s.resetEvent).busy = false := rfl
@[simp] theorem State.resetEvent_done : (s.resetEvent).done = false := rfl
@[simp] theorem State.resetEvent_lastStatus : (s.resetEvent).lastStatus = 0 := rfl
@[simp] theorem State.resetEvent_errOffset : (s.resetEvent).errOffset = 0 := rfl
@[simp] theorem State.resetEvent_inOff : (s.resetEvent).inOff = 0 := rfl
@[simp] theorem State.resetEvent_enc : (s.resetEvent).enc = EncRegs.reset := rfl
@[simp] theorem State.resetEvent_dec : (s.resetEvent).dec = DecRegs.reset := rfl
@[simp] theorem State.resetEvent_host : (s.resetEvent).host = s.host := rfl

/-! ### Setting `out_ready` -/

@[simp] theorem State.setReady_width (b : Bool) : (s.setReady b).width = s.width := rfl
@[simp] theorem State.setReady_op (b : Bool) : (s.setReady b).op = s.op := rfl
@[simp] theorem State.setReady_shift (b : Bool) : (s.setReady b).shift = s.shift := rfl
@[simp] theorem State.setReady_busy (b : Bool) : (s.setReady b).busy = s.busy := rfl
@[simp] theorem State.setReady_done (b : Bool) : (s.setReady b).done = s.done := rfl
@[simp] theorem State.setReady_lastStatus (b : Bool) : (s.setReady b).lastStatus = s.lastStatus := rfl
@[simp] theorem State.setReady_errOffset (b : Bool) : (s.setReady b).errOffset = s.errOffset := rfl
@[simp] theorem State.setReady_inOff (b : Bool) : (s.setReady b).inOff = s.inOff := rfl
@[simp] theorem State.setReady_enc (b : Bool) : (s.setReady b).enc = s.enc := rfl
@[simp] theorem State.setReady_dec (b : Bool) : (s.setReady b).dec = s.dec := rfl
@[simp] theorem State.setReady_host (b : Bool) : (s.setReady b).host = { s.host with outReady := b } := rfl

/-! ### Placing a host word -/

@[simp] theorem State.placeWord_width (w : HostWord) : (s.placeWord w).width = s.width := rfl
@[simp] theorem State.placeWord_op (w : HostWord) : (s.placeWord w).op = s.op := rfl
@[simp] theorem State.placeWord_shift (w : HostWord) : (s.placeWord w).shift = s.shift := rfl
@[simp] theorem State.placeWord_busy (w : HostWord) : (s.placeWord w).busy = s.busy := rfl
@[simp] theorem State.placeWord_done (w : HostWord) : (s.placeWord w).done = s.done := rfl
@[simp] theorem State.placeWord_lastStatus (w : HostWord) : (s.placeWord w).lastStatus = s.lastStatus := rfl
@[simp] theorem State.placeWord_errOffset (w : HostWord) : (s.placeWord w).errOffset = s.errOffset := rfl
@[simp] theorem State.placeWord_inOff (w : HostWord) : (s.placeWord w).inOff = s.inOff := rfl
@[simp] theorem State.placeWord_enc (w : HostWord) : (s.placeWord w).enc = s.enc := rfl
@[simp] theorem State.placeWord_dec (w : HostWord) : (s.placeWord w).dec = s.dec := rfl
@[simp] theorem State.placeWord_host (w : HostWord) : (s.placeWord w).host = { s.host with script := .word w :: s.host.script, sched := .host :: s.host.sched } := rfl

/-! ### Placing an operation -/

@[simp] theorem State.placeOp_width (b : BitVec 3) : (s.placeOp b).width = s.width := rfl
@[simp] theorem State.placeOp_op (b : BitVec 3) : (s.placeOp b).op = b := rfl
@[simp] theorem State.placeOp_shift (b : BitVec 3) : (s.placeOp b).shift = s.shift := rfl
@[simp] theorem State.placeOp_busy (b : BitVec 3) : (s.placeOp b).busy = s.busy := rfl
@[simp] theorem State.placeOp_done (b : BitVec 3) : (s.placeOp b).done = s.done := rfl
@[simp] theorem State.placeOp_lastStatus (b : BitVec 3) : (s.placeOp b).lastStatus = s.lastStatus := rfl
@[simp] theorem State.placeOp_errOffset (b : BitVec 3) : (s.placeOp b).errOffset = s.errOffset := rfl
@[simp] theorem State.placeOp_inOff (b : BitVec 3) : (s.placeOp b).inOff = s.inOff := rfl
@[simp] theorem State.placeOp_enc (b : BitVec 3) : (s.placeOp b).enc = s.enc := rfl
@[simp] theorem State.placeOp_dec (b : BitVec 3) : (s.placeOp b).dec = s.dec := rfl
@[simp] theorem State.placeOp_host (b : BitVec 3) : (s.placeOp b).host = { s.host with sched := .unit :: s.host.sched } := rfl

end Sys2Proof.Machine
end

