-- ==== Sys2Proof/Laws/Units.lean ====
section
/-! SUPPORT. What the step rules of `RLE-E` and `RLE-D` do: one lemma per rule (R115 to R122, R135 to R141), that accept and
emit exclude each other (R123, R142), and that each rule keeps its unit's invariant (R41). -/

namespace Sys2Proof.Machine

/-! ### The encoder -/

section Encoder
variable {e : EncRegs}

/-- R114. -/
theorem EncRegs.ready_iff : e.ready = true ↔ e.fsN = 0 ∧ e.endP = false := by
  simp [EncRegs.ready]

/-- R115. -/
theorem EncRegs.accept_opens (h : e.haveRun = false) (b : Byte) :
    e.accept (.data b) = { e with haveRun := true, cur := b, cnt := 1 } := by
  simp [EncRegs.accept, h]

/-- R116. -/
theorem EncRegs.accept_counts (h : e.haveRun = true) (hc : e.cnt ≠ 255) :
    e.accept (.data e.cur) = { e with cnt := e.cnt + 1 } := by
  simp only [EncRegs.accept, h, if_true, if_neg hc]

/-- R117. -/
theorem EncRegs.accept_splits (h : e.haveRun = true) (hc : e.cnt = 255) :
    e.accept (.data e.cur) = { e with fsV := e.cur, fsC := 255, fsN := 2, cnt := 1 } := by
  simp [EncRegs.accept, EncRegs.holdFrame, h, hc]

/-- R118. -/
theorem EncRegs.accept_closes (h : e.haveRun = true) {b : Byte} (hb : b ≠ e.cur) :
    e.accept (.data b) = { e with fsV := e.cur, fsC := e.cnt, fsN := 2, cur := b, cnt := 1 } := by
  simp [EncRegs.accept, EncRegs.holdFrame, h, hb]

/-- R119, with a run open. -/
theorem EncRegs.accept_end_of_run (h : e.haveRun = true) (st : Byte) :
    e.accept (.eom st) = ⟨false, 0, 0, 2, e.cur, e.cnt, true, st⟩ := by
  simp [EncRegs.accept, EncRegs.holdFrame, h]

/-- R119, the empty message. -/
theorem EncRegs.accept_end_empty (h : e.haveRun = false) (st : Byte) :
    e.accept (.eom st) = ⟨false, 0, 0, e.fsN, e.fsV, e.fsC, true, st⟩ := by
  simp [EncRegs.accept, h]

/-- R120. -/
theorem EncRegs.emit_value (h : e.fsN = 2) : e.emit = some (.data e.fsV, { e with fsN := 1 }) := by
  simp [EncRegs.emit, h]

/-- R121. -/
theorem EncRegs.emit_count (h : e.fsN = 1) :
    e.emit = some (.data e.fsC, { e with fsN := 0, fsV := 0, fsC := 0 }) := by
  simp [EncRegs.emit, h]

/-- R122. -/
theorem EncRegs.emit_end (h : e.fsN = 0) (hp : e.endP = true) :
    e.emit = some (.eom e.endSt, { e with endP := false, endSt := 0 }) := by
  simp [EncRegs.emit, h, hp]

/-- R123: where the encoder accepts, it has nothing to emit. -/
theorem EncRegs.emit_of_ready (h : e.ready = true) : e.emit = none := by
  obtain ⟨hn, hp⟩ := EncRegs.ready_iff.mp h
  simp [EncRegs.emit, hn, hp]

/-- Everything an emit step of the encoder can be (R120 to R122). -/
theorem EncRegs.emit_cases {t : Sym} {e' : EncRegs} (h : e.emit = some (t, e')) :
    (e.fsN = 2 ∧ t = .data e.fsV ∧ e' = { e with fsN := 1 }) ∨
    (e.fsN = 1 ∧ t = .data e.fsC ∧ e' = { e with fsN := 0, fsV := 0, fsC := 0 }) ∨
    (e.fsN = 0 ∧ e.endP = true ∧ t = .eom e.endSt ∧ e' = { e with endP := false, endSt := 0 }) := by
  unfold EncRegs.emit at h
  split_ifs at h with h2 h1 h0
  · simp only [Option.some.injEq, Prod.mk.injEq] at h
    exact .inl ⟨h2, h.1.symm, h.2.symm⟩
  · simp only [Option.some.injEq, Prod.mk.injEq] at h
    exact .inr (.inl ⟨h1, h.1.symm, h.2.symm⟩)
  · simp only [Option.some.injEq, Prod.mk.injEq] at h
    exact .inr (.inr ⟨h0.1, h0.2, h.1.symm, h.2.symm⟩)

theorem EncRegs.reset_inv : EncRegs.reset.Inv := by decide

/-- An accepted symbol keeps the encoder's invariant (R41 (a) to (c)); an end is taken with status `0x00` (R82). -/
theorem EncRegs.accept_inv {t : Sym} (h : e.Inv) (hr : e.ready = true) (ht : ∀ st, t = .eom st → st = 0) :
    (e.accept t).Inv := by
  obtain ⟨hn, hp⟩ := EncRegs.ready_iff.mp hr
  obtain ⟨ha, hb, -, hd, -, -, hg⟩ := h
  cases t with
  | data b =>
    rcases hh : e.haveRun with _ | _
    · rw [EncRegs.accept_opens hh]; simp_all [EncRegs.Inv]
    · by_cases hc : b = e.cur
      · subst hc
        by_cases h5 : e.cnt = 255
        · rw [EncRegs.accept_splits hh h5]; simp_all [EncRegs.Inv]
        · have hz : e.cnt + 1 ≠ 0 := by
            intro h0; apply h5; bv_omega
          rw [EncRegs.accept_counts hh h5]; simp_all [EncRegs.Inv]
      · rw [EncRegs.accept_closes hh hc]; simp_all [EncRegs.Inv]
  | eom st =>
    obtain rfl := ht st rfl
    rcases hh : e.haveRun with _ | _
    · rw [EncRegs.accept_end_empty hh]
      exact ⟨fun _ => ⟨rfl, rfl⟩, fun h => by simp at h, by simp [hn], hd, fun h => absurd hn h, fun _ => rfl, rfl⟩
    · rw [EncRegs.accept_end_of_run hh]
      exact ⟨fun _ => ⟨rfl, rfl⟩, fun h => by simp at h, by simp, fun h => by simp at h, fun _ => hb hh, fun _ => rfl, rfl⟩

/-- An emitted symbol keeps the encoder's invariant. -/
theorem EncRegs.emit_inv {t : Sym} {e' : EncRegs} (h : e.Inv) (he : e.emit = some (t, e')) : e'.Inv := by
  obtain ⟨ha, hb, -, hd, hf, hp, hg⟩ := h
  rcases EncRegs.emit_cases he with ⟨hn, -, rfl⟩ | ⟨hn, -, rfl⟩ | ⟨hn, hq, -, rfl⟩ <;> simp_all [EncRegs.Inv]

/-- After its output `END` the encoder is back at its reset values (R42, R122). -/
theorem EncRegs.emit_end_reset {st : Byte} {e' : EncRegs} (h : e.Inv) (he : e.emit = some (.eom st, e')) :
    st = 0 ∧ e' = EncRegs.reset := by
  obtain ⟨ha, -, -, hd, -, hp, hg⟩ := h
  rcases EncRegs.emit_cases he with ⟨-, ht, -⟩ | ⟨-, ht, -⟩ | ⟨hn, hq, ht, rfl⟩
  · cases ht
  · cases ht
  · cases ht
    have hh := hp hq
    exact ⟨hg, by simp [EncRegs.reset, hh, ha hh, hn, hd hn]⟩

end Encoder

/-! ### The decoder -/

section Decoder
variable {d : DecRegs}

/-- R134. -/
theorem DecRegs.ready_iff : d.ready = true ↔ d.rem = 0 ∧ d.endP = false := by
  simp [DecRegs.ready]

/-- R135. -/
theorem DecRegs.accept_value (h : d.ph = false) (b : Byte) :
    d.accept (.data b) = { d with fv := b, ph := true } := by
  simp [DecRegs.accept, h]

/-- R136. -/
theorem DecRegs.accept_count (h : d.ph = true) {b : Byte} (hb : b ≠ 0) :
    d.accept (.data b) = { d with rxV := d.fv, rem := b, fv := 0, ph := false } := by
  simp only [DecRegs.accept, h, if_true, if_neg hb]

/-- R137. -/
theorem DecRegs.accept_count_zero (h : d.ph = true) :
    d.accept (.data 0) = { d with fv := 0, ph := false } := by
  simp [DecRegs.accept, h]

/-- R138. -/
theorem DecRegs.accept_end_even (h : d.ph = false) (st : Byte) :
    d.accept (.eom st) = { d with endP := true, endSt := st } := by
  simp [DecRegs.accept, h]

/-- R139: the malformed stream. -/
theorem DecRegs.accept_end_odd (h : d.ph = true) (st : Byte) :
    d.accept (.eom st) = { d with endP := true, endSt := statusMalformed, fv := 0, ph := false } := by
  simp [DecRegs.accept, DecRegs.raiseMalformed, h]

/-- R140. -/
theorem DecRegs.emit_repetition (h : d.rem ≠ 0) :
    d.emit = some (.data d.rxV, { d with rem := d.rem - 1, rxV := if d.rem = 1 then 0 else d.rxV }) := by
  simp only [DecRegs.emit, if_neg h]

/-- R141. -/
theorem DecRegs.emit_end (h : d.rem = 0) (hp : d.endP = true) :
    d.emit = some (.eom d.endSt, { d with endP := false, endSt := 0 }) := by
  simp [DecRegs.emit, h, hp]

/-- R142: where the decoder accepts, it has nothing to emit. -/
theorem DecRegs.emit_of_ready (h : d.ready = true) : d.emit = none := by
  obtain ⟨hn, hp⟩ := DecRegs.ready_iff.mp h
  simp [DecRegs.emit, hn, hp]

/-- Everything an emit step of the decoder can be (R140, R141). -/
theorem DecRegs.emit_cases {t : Sym} {d' : DecRegs} (h : d.emit = some (t, d')) :
    (d.rem ≠ 0 ∧ t = .data d.rxV ∧ d' = { d with rem := d.rem - 1, rxV := if d.rem = 1 then 0 else d.rxV }) ∨
    (d.rem = 0 ∧ d.endP = true ∧ t = .eom d.endSt ∧ d' = { d with endP := false, endSt := 0 }) := by
  by_cases h0 : d.rem = 0
  · rcases hp : d.endP with _ | _
    · simp [DecRegs.emit, h0, hp] at h
    · rw [DecRegs.emit_end h0 hp] at h
      simp only [Option.some.injEq, Prod.mk.injEq] at h
      exact .inr ⟨h0, rfl, h.1.symm, h.2.symm⟩
  · rw [DecRegs.emit_repetition h0] at h
    simp only [Option.some.injEq, Prod.mk.injEq] at h
    exact .inl ⟨h0, h.1.symm, h.2.symm⟩

theorem DecRegs.reset_inv : DecRegs.reset.Inv := by decide

/-- An accepted symbol keeps the decoder's invariant (R41 (d) to (f)). -/
theorem DecRegs.accept_inv {t : Sym} (h : d.Inv) (hr : d.ready = true) (ht : ∀ st, t = .eom st → st = 0) :
    (d.accept t).Inv := by
  obtain ⟨hn, hp⟩ := DecRegs.ready_iff.mp hr
  obtain ⟨ha, hb, hc, hd, hf⟩ := h
  cases t with
  | data b =>
    rcases hh : d.ph with _ | _
    · rw [DecRegs.accept_value hh]; simp_all [DecRegs.Inv]
    · by_cases h0 : b = 0
      · subst h0; rw [DecRegs.accept_count_zero hh]; simp_all [DecRegs.Inv]
      · rw [DecRegs.accept_count hh h0]; simp_all [DecRegs.Inv]
  | eom st =>
    obtain rfl := ht st rfl
    rcases hh : d.ph with _ | _
    · rw [DecRegs.accept_end_even hh]
      exact ⟨ha, hb, fun _ => rfl, fun _ => hh, .inl rfl⟩
    · rw [DecRegs.accept_end_odd hh]
      exact ⟨fun _ => rfl, hb, fun h => by simp at h, fun _ => rfl, .inr rfl⟩

/-- An emitted symbol keeps the decoder's invariant. -/
theorem DecRegs.emit_inv {t : Sym} {d' : DecRegs} (h : d.Inv) (hd : d.emit = some (t, d')) : d'.Inv := by
  obtain ⟨ha, hb, hc, hp, hf⟩ := h
  rcases DecRegs.emit_cases hd with ⟨hn, -, rfl⟩ | ⟨hn, hq, -, rfl⟩
  · refine ⟨ha, fun h0 => ?_, hc, hp, hf⟩
    have h1 : d.rem = 1 := by bv_omega
    simp [h1]
  · refine ⟨ha, hb, fun _ => rfl, fun h => by simp at h, .inl rfl⟩

/-- After its output `END` the decoder is back at its reset values (R42, R141). -/
theorem DecRegs.emit_end_reset {st : Byte} {d' : DecRegs} (h : d.Inv) (hd : d.emit = some (.eom st, d')) :
    st = d.endSt ∧ d' = DecRegs.reset := by
  obtain ⟨ha, hb, -, hp, -⟩ := h
  rcases DecRegs.emit_cases hd with ⟨-, ht, -⟩ | ⟨hn, hq, ht, rfl⟩
  · cases ht
  · cases ht
    have hh := hp hq
    exact ⟨rfl, by simp [DecRegs.reset, hh, ha hh, hn, hb hn]⟩

end Decoder

end Sys2Proof.Machine
end

