-- ==== Sys2Proof/Laws/Ops.lean ====
section
/-! SUPPORT. What the shared operations over the links, the port and the routing can do, said once each: an inversion lemma
per operation, the equations of an accept per path, and the fields an operation never touches. -/

namespace Sys2Proof.Machine

variable {s : State}

/-! ### The configuration port -/

theorem State.serveCfg_nil (h : s.host.cfgPend = []) : s.serveCfg = s := by
  simp [State.serveCfg, h]

theorem State.serveCfg_cons {c : CfgAccess} {rest : List CfgAccess} (h : s.host.cfgPend = c :: rest) :
    s.serveCfg =
      if s.cfgReady c then State.perform { s with host := { s.host with cfgPend := rest } } c else s := by
  simp [State.serveCfg, h]

/-- The port's turn performs the oldest access, or changes nothing. -/
theorem State.serveCfg_cases (s : State) :
    s.serveCfg = s ∨ ∃ c rest, s.host.cfgPend = c :: rest ∧ s.cfgReady c = true ∧
      s.serveCfg = State.perform { s with host := { s.host with cfgPend := rest } } c := by
  rcases h : s.host.cfgPend with _ | ⟨c, rest⟩
  · exact .inl (State.serveCfg_nil h)
  · rw [State.serveCfg_cons h]
    split_ifs with hr
    · exact .inr ⟨c, rest, rfl, hr, rfl⟩
    · exact .inl rfl

/-- The write of an index (R171) as the chain of its cases. -/
theorem State.cfgStore_eq (s : State) (a : CfgIndex) (v : Word) :
    s.cfgStore a v =
      if a = 0 then { s with op := BitVec.ofNat 3 v } else if a = 1 then { s with shift := wrap s.width v } else s := by
  fin_cases a <;> rfl

/-- An access that is performed changes at most `OP`, `SHIFT` and the values read. -/
theorem State.perform_cases (s : State) (c : CfgAccess) :
    (∃ b, s.perform c = { s with op := b }) ∨ (∃ v, s.perform c = { s with shift := v }) ∨
    (∃ v, s.perform c = { s with host := { s.host with rdata := s.host.rdata ++ [v] } }) := by
  cases c with
  | read a => exact .inr (.inr ⟨_, rfl⟩)
  | write a v =>
    simp only [State.perform, State.cfgStore_eq]
    split_ifs
    · exact .inl ⟨_, rfl⟩
    · exact .inr (.inl ⟨_, rfl⟩)
    · exact .inl ⟨s.op, rfl⟩

/-! ### Accepting a symbol (R151, R157 to R160), one equation per path and kind -/

theorem State.acceptOn_cipher_data (dir : Dir) (b : Byte) :
    s.acceptOn (.cipher dir) (.data b) =
      { s with busy := true, inOff := wrap s.width (s.inOff + 1),
               host := { s.host with out := s.host.out ++ [.data (sub dir s.k b)] } } := rfl

theorem State.acceptOn_cipher_eom (dir : Dir) (st : Byte) :
    s.acceptOn (.cipher dir) (.eom st) =
      { s with busy := false, done := true, lastStatus := 0, errOffset := 0, inOff := 0,
               host := { s.host with out := s.host.out ++ [.eom 0] } } := rfl

theorem State.acceptOn_enc_data (on : Bool) (b : Byte) :
    s.acceptOn (.enc on) (.data b) =
      { s with busy := true, inOff := wrap s.width (s.inOff + 1),
               enc := s.enc.accept (.data (if on then subEnc s.k b else b)) } := by
  cases on <;> rfl

theorem State.acceptOn_enc_eom (on : Bool) (st : Byte) :
    s.acceptOn (.enc on) (.eom st) = { s with busy := true, enc := s.enc.accept (.eom 0) } := by
  cases on <;> rfl

theorem State.acceptOn_dec_data (on : Bool) (b : Byte) :
    s.acceptOn (.dec on) (.data b) =
      { s with busy := true, inOff := wrap s.width (s.inOff + 1), dec := s.dec.accept (.data b) } := rfl

theorem State.acceptOn_dec_eom (on : Bool) (st : Byte) :
    s.acceptOn (.dec on) (.eom st) = { s with busy := true, dec := s.dec.accept (.eom 0) } := rfl

theorem State.acceptOn_sink_data (b : Byte) :
    s.acceptOn .sink (.data b) = { s with busy := true, inOff := wrap s.width (s.inOff + 1) } := rfl

theorem State.acceptOn_sink_eom (st : Byte) :
    s.acceptOn .sink (.eom st) =
      { s with busy := false, done := true, lastStatus := statusIllegalOp, errOffset := 0, inOff := 0,
               host := { s.host with out := s.host.out ++ [.eom statusIllegalOp] } } := rfl

/-! ### The `in` link and the unit's turn -/

theorem State.transferIn_nil (h : s.host.inPend = []) (p : Path) : s.transferIn p = s := by
  simp [State.transferIn, h]

theorem State.transferIn_cons {t : Sym} {rest : List Sym} (h : s.host.inPend = t :: rest) (p : Path) :
    s.transferIn p =
      if s.inReady p t then State.acceptOn { s with host := { s.host with inPend := rest } } p t else s := by
  simp [State.transferIn, h]

/-- The transfer accepts the oldest symbol, or changes nothing. -/
theorem State.transferIn_cases (s : State) (p : Path) :
    s.transferIn p = s ∨ ∃ t rest, s.host.inPend = t :: rest ∧ s.inReady p t = true ∧
      s.transferIn p = State.acceptOn { s with host := { s.host with inPend := rest } } p t := by
  rcases h : s.host.inPend with _ | ⟨t, rest⟩
  · exact .inl (State.transferIn_nil h p)
  · rw [State.transferIn_cons h]
    split_ifs with hr
    · exact .inr ⟨t, rest, rfl, hr, rfl⟩
    · exact .inl rfl

/-- An emit step is one of a sequential unit (R158, R159). -/
theorem State.emitOn_cases {p : Path} {u : State} (h : s.emitOn p = some u) :
    (∃ on t e, p = .enc on ∧ s.enc.emit = some (t, e) ∧ u = State.deliver { s with enc := e } t) ∨
    (∃ on t d, p = .dec on ∧ s.dec.emit = some (t, d) ∧
      u = State.deliver { s with dec := d } (scuIf on .decode s.k t)) := by
  cases p with
  | cipher dir => simp [State.emitOn] at h
  | sink => simp [State.emitOn] at h
  | enc on =>
    rcases he : s.enc.emit with _ | ⟨t, e⟩
    · simp [State.emitOn, he] at h
    · simp only [State.emitOn, he, Option.some.injEq] at h
      exact .inl ⟨on, t, e, rfl, rfl, h.symm⟩
  | dec on =>
    rcases hd : s.dec.emit with _ | ⟨t, d⟩
    · simp [State.emitOn, hd] at h
    · simp only [State.emitOn, hd, Option.some.injEq] at h
      exact .inr ⟨on, t, d, rfl, rfl, h.symm⟩

/-- Everything the unit's turn can do: emit, accept the oldest symbol, or wait (R157 to R160, R193). -/
theorem State.unitStep_cases (s : State) (p : Path) :
    (∃ u, s.emitOn p = some u ∧ s.host.outReady = true ∧ s.unitStep p = u) ∨
    (∃ t rest, s.emitOn p = none ∧ s.host.inPend = t :: rest ∧ s.inReady p t = true ∧
      s.unitStep p = State.acceptOn { s with host := { s.host with inPend := rest } } p t) ∨
    s.unitStep p = s := by
  unfold State.unitStep
  rcases he : s.emitOn p with _ | u
  · rcases s.transferIn_cases p with h | ⟨t, rest, h1, h2, h3⟩
    · exact .inr (.inr h)
    · exact .inr (.inl ⟨t, rest, rfl, h1, h2, h3⟩)
  · rcases ho : s.host.outReady with _ | _
    · exact .inr (.inr (by simp))
    · exact .inl ⟨u, rfl, rfl, by simp⟩

/-! ### What accepting and emitting leave alone -/

/-- A step of the unit that accepts touches neither the configuration nor the host's other ports. -/
theorem State.acceptOn_frame (s : State) (p : Path) (t : Sym) :
    (s.acceptOn p t).width = s.width ∧ (s.acceptOn p t).op = s.op ∧ (s.acceptOn p t).shift = s.shift ∧
    ∃ new, (s.acceptOn p t).host = { s.host with out := s.host.out ++ new } := by
  cases p with
  | cipher dir => cases t <;> exact ⟨rfl, rfl, rfl, _, rfl⟩
  | enc on =>
    refine ⟨?_, ?_, ?_, [], ?_⟩ <;> cases t <;> cases on <;> simp [State.acceptOn]
  | dec on =>
    refine ⟨?_, ?_, ?_, [], ?_⟩ <;> cases t <;> simp [State.acceptOn]
  | sink =>
    cases t with
    | data b => exact ⟨rfl, rfl, rfl, [], by simp [State.acceptOn]⟩
    | eom st => exact ⟨rfl, rfl, rfl, _, rfl⟩

/-- Delivering a symbol appends it to the output and touches neither the configuration nor the working registers. -/
theorem State.deliver_frame (s : State) (t : Sym) :
    (s.deliver t).width = s.width ∧ (s.deliver t).op = s.op ∧ (s.deliver t).shift = s.shift ∧
    (s.deliver t).enc = s.enc ∧ (s.deliver t).dec = s.dec ∧ (s.deliver t).host = { s.host with out := s.host.out ++ [t] } := by
  cases t <;> exact ⟨rfl, rfl, rfl, rfl, rfl, rfl⟩

/-- The unit's turn keeps `W`, `OP` and `SHIFT`, takes at most the oldest symbol offered, and only appends to the output. -/
theorem State.unitStep_frame (s : State) (p : Path) :
    (s.unitStep p).width = s.width ∧ (s.unitStep p).op = s.op ∧ (s.unitStep p).shift = s.shift ∧
    ∃ taken rest new, s.host.inPend = taken ++ rest ∧
      (s.unitStep p).host = { s.host with inPend := rest, out := s.host.out ++ new } := by
  rcases s.unitStep_cases p with ⟨u, he, -, hu⟩ | ⟨t, rest, -, hi, -, hu⟩ | hu
  · rw [hu]
    rcases State.emitOn_cases he with ⟨on, t, e, -, -, rfl⟩ | ⟨on, t, d, -, -, rfl⟩ <;>
    · obtain ⟨h0, h1, h2, -, -, h5⟩ := State.deliver_frame _ _
      exact ⟨h0, h1, h2, [], s.host.inPend, _, rfl, h5⟩
  · rw [hu]
    obtain ⟨h0, h1, h2, new, h3⟩ := State.acceptOn_frame { s with host := { s.host with inPend := rest } } p t
    exact ⟨h0, h1, h2, [t], rest, new, hi, h3⟩
  · rw [hu]
    exact ⟨rfl, rfl, rfl, [], s.host.inPend, [], rfl, by simp⟩

/-- The same of the `in` link's transfer. -/
theorem State.transferIn_frame (s : State) (p : Path) :
    (s.transferIn p).width = s.width ∧ (s.transferIn p).op = s.op ∧ (s.transferIn p).shift = s.shift ∧
    ∃ taken rest new, s.host.inPend = taken ++ rest ∧
      (s.transferIn p).host = { s.host with inPend := rest, out := s.host.out ++ new } := by
  rcases s.transferIn_cases p with hu | ⟨t, rest, hi, -, hu⟩
  · rw [hu]
    exact ⟨rfl, rfl, rfl, [], s.host.inPend, [], rfl, by simp⟩
  · rw [hu]
    obtain ⟨h0, h1, h2, new, h3⟩ := State.acceptOn_frame { s with host := { s.host with inPend := rest } } p t
    exact ⟨h0, h1, h2, [t], rest, new, hi, h3⟩

end Sys2Proof.Machine
end

