-- ==== Sys2Proof/Laws/Step.lean ====
section
/-! SUPPORT. What an instruction and a step can do, said once: `exec` as turns of the unit, transfers and turns of the port,
and the induction over a step that every invariant needs. -/

namespace Sys2Proof.Machine

/-- The operation in `CTRL[2:0]` runs as the unit's turn on the path that `OP` selects (R72, R150). -/
theorem exec_decodeOp (b : BitVec 3) (s : State) : exec (decodeOp b) s = .next (s.unitStep (pathOf b)) := by
  fin_cases b <;> rfl

/-- What the host can drive: a symbol, a frame or an access (R84, R85). -/
theorem decodeHostWord_cases (w : HostWord) :
    (∃ d, decodeHostWord w = .data d) ∨ (∃ st, decodeHostWord w = .endSym st) ∨
    (∃ v n, decodeHostWord w = .rep v n) ∨ (∃ a v, decodeHostWord w = .cfgWrite a v) ∨
    (∃ a, decodeHostWord w = .cfgRead a) := by
  cases w with
  | sym b =>
    change (∃ d, decodeSym b = .data d) ∨ (∃ st, decodeSym b = .endSym st) ∨ _
    unfold decodeSym
    rcases symOfBits b with d | st
    · exact .inl ⟨d, rfl⟩
    · exact .inr (.inl ⟨st, rfl⟩)
  | frame b => exact .inr (.inr (.inl ⟨_, _, rfl⟩))
  | cfg c v =>
    refine .inr (.inr (.inr ?_))
    change (∃ a u, decodeCfg c v = .cfgWrite a u) ∨ ∃ a, decodeCfg c v = .cfgRead a
    unfold decodeCfg
    split
    · exact .inl ⟨_, _, rfl⟩
    · exact .inr ⟨_, rfl⟩

/-- A symbol or a frame runs as its symbols driven on `in` (R71, R73, R85). -/
theorem exec_drive {i : Instr} (h : offered i ≠ []) (s : State) : exec i s = .next (s.drive (offered i)) := by
  cases i <;> first | rfl | exact absurd rfl h

theorem exec_cfgWrite (a : CfgIndex) (v : Word) (s : State) :
    exec (.cfgWrite a v) s = .next (s.offerCfg (.write a v)).serveCfg := rfl

theorem exec_cfgRead (a : CfgIndex) (s : State) :
    exec (.cfgRead a) s = .next (s.offerCfg (.read a)).serveCfg := rfl

/-- What the moves an instruction is made of keep, every word the host drives keeps. -/
theorem execHostWord_keeps {P : State → Prop}
    (hOfferIn : ∀ s l, P s → P (s.offerIn l))
    (hOfferCfg : ∀ s c, P s → P (s.offerCfg c))
    (hTransfer : ∀ s, P s → P (s.transferIn (pathOf s.op)))
    (hServe : ∀ s, P s → P s.serveCfg)
    {s t : State} {w : HostWord} (hs : P s) (h : exec (decodeHostWord w) s = .next t) : P t := by
  have hDrive : ∀ l, P (s.drive l) := fun l => hTransfer _ (hOfferIn s l hs)
  rcases decodeHostWord_cases w with ⟨d, hw⟩ | ⟨st, hw⟩ | ⟨v, n, hw⟩ | ⟨a, v, hw⟩ | ⟨a, hw⟩ <;> rw [hw] at h
  · exact Host.Outcome.next.inj h ▸ hDrive [.data d]
  · exact Host.Outcome.next.inj h ▸ hDrive [.eom st]
  · exact Host.Outcome.next.inj h ▸ hDrive [.data v, .data n]
  · rw [exec_cfgWrite] at h
    exact Host.Outcome.next.inj h ▸ hServe _ (hOfferCfg s _ hs)
  · rw [exec_cfgRead] at h
    exact Host.Outcome.next.inj h ▸ hServe _ (hOfferCfg s _ hs)

/-- An invariant of the moves is an invariant of the step: the induction of every claim about all steps, made once. -/
theorem step_keeps {P : State → Prop}
    (hOfferIn : ∀ s l, P s → P (s.offerIn l))
    (hOfferCfg : ∀ s c, P s → P (s.offerCfg c))
    (hTransfer : ∀ s, P s → P (s.transferIn (pathOf s.op)))
    (hUnit : ∀ s, P s → P (s.unitStep (pathOf s.op)))
    (hServe : ∀ s, P s → P s.serveCfg)
    (hReset : ∀ s, P s → P s.resetEvent)
    (hScript : ∀ s l, P s → P { s with host := { s.host with script := l } })
    (hSched : ∀ s l, P s → P { s with host := { s.host with sched := l } })
    (hReady : ∀ s b, P s → P (s.setReady b))
    {s t : State} (hs : P s) (h : step s = .next t) : P t := by
  have hTurn : P s.nextTurn.2 := by
    unfold State.nextTurn
    split
    exacts [hs, hSched s _ hs]
  unfold step at h
  rcases ht : s.nextTurn with ⟨a, s1⟩
  rw [ht] at h hTurn
  cases a with
  | unit =>
    change exec (decodeOp s1.op) s1 = .next t at h
    rw [exec_decodeOp] at h
    cases h
    exact hUnit s1 hTurn
  | port => cases h; exact hServe s1 hTurn
  | host =>
    simp only [State.nextAction] at h
    rcases hl : s1.host.script with _ | ⟨x, rest⟩
    · rw [hl] at h; cases h; exact hTurn
    · rw [hl] at h
      have h2 := hScript s1 rest hTurn
      cases x with
      | word w => exact execHostWord_keeps hOfferIn hOfferCfg hTransfer hServe h2 h
      | reset => cases h; exact hReset _ h2
      | ready b => cases h; exact hReady _ b h2

end Sys2Proof.Machine
end

