-- ==== Sys2Proof/Laws/PerInstr.lean ====
section
/-! SUPPORT. Statements made for all instructions, one lemma per constructor. -/

namespace Sys2Proof.Laws.EncodedFits

open Sys2Proof

/-- On a unit of any width, the encoding of an instruction the unit has is a word that fits its row's format (R70, R84). -/
def Statement (i : Instr) : Prop :=
  ∀ w, i.wellFormed w = true → (encode w i).wellFormed w = true

theorem cenc : Statement .cenc := fun _ _ => decide_eq_true (by decide : 0 < 2 ^ 3)
theorem cdec : Statement .cdec := fun _ _ => decide_eq_true (by decide : 1 < 2 ^ 3)
theorem rlec : Statement .rlec := fun _ _ => decide_eq_true (by decide : 2 < 2 ^ 3)
theorem rled : Statement .rled := fun _ _ => decide_eq_true (by decide : 3 < 2 ^ 3)
theorem mixe : Statement .mixe := fun _ _ => decide_eq_true (by decide : 4 < 2 ^ 3)
theorem mixd : Statement .mixd := fun _ _ => decide_eq_true (by decide : 5 < 2 ^ 3)
theorem rsv6 : Statement .rsv6 := fun _ _ => decide_eq_true (by decide : 6 < 2 ^ 3)
theorem rsv7 : Statement .rsv7 := fun _ _ => decide_eq_true (by decide : 7 < 2 ^ 3)

theorem data (d : Byte) : Statement (.data d) := fun w _ => by
  have := d.isLt
  apply decide_eq_true
  simp only [encode, Format.width]
  omega

theorem endSym (s : Byte) : Statement (.endSym s) := fun w _ => by
  have := s.isLt
  apply decide_eq_true
  simp only [encode, Format.width]
  omega

theorem rep (v n : Byte) : Statement (.rep v n) := fun w _ => by
  have := v.isLt
  have := n.isLt
  apply decide_eq_true
  simp only [encode, Format.width]
  omega

/-- Four control bits above `w` data bits are `4 + w` bits. -/
theorem cfg_lt (w v : Nat) (c : BitVec 4) (hv : v < 2 ^ w) : c.toNat * 2 ^ w + v < 2 ^ (4 + w) := by
  have hc : c.toNat + 1 ≤ 16 := c.isLt
  calc c.toNat * 2 ^ w + v < (c.toNat + 1) * 2 ^ w := by rw [Nat.add_mul]; omega
    _ ≤ 16 * 2 ^ w := Nat.mul_le_mul_right _ hc
    _ = 2 ^ (4 + w) := by rw [Nat.pow_add]

theorem cfgWrite (a : CfgIndex) (v : Word) : Statement (.cfgWrite a v) := fun w h =>
  decide_eq_true (cfg_lt w v (cfgCtl true a) (of_decide_eq_true h))

theorem cfgRead (a : CfgIndex) : Statement (.cfgRead a) := fun w _ =>
  decide_eq_true (cfg_lt w 0 (cfgCtl false a) (Nat.two_pow_pos w))

end Sys2Proof.Laws.EncodedFits
end

