-- ==== Sys2Proof/Tests/Slice0.lean ====
section
/-! SUPPORT. Tests of one step each, with results taken from spec/ (the vectors of spec/95_test_vectors.md, and words written
out from spec/30_encoding.md), and a witness for the hypotheses of every statement that has some. -/

namespace Sys2Proof.Tests

open Sys2Proof Sys2Proof.Machine

/-! ### Helpers -/

/-- The next state of an outcome, if it is one. -/
def nextOf (o : Host.Outcome State Fault Refusal) : Option State :=
  match o with
  | .next s => some s
  | .fault _ => none
  | .refused _ => none

/-- The next state after some steps. -/
def after (n : Nat) (s : State) : Option State :=
  nextOf (Sys2Proof.core.run n s)

/-- After reset, with an operation and a shift configured and symbols offered on `in`. -/
def unitAt (op : BitVec 3) (shift : Word) (l : List Sym) : State :=
  { State.reset with op := op, shift := shift, host := { HostSide.silent with inPend := l } }

/-- As `unitAt`, inside a message of which `n` bytes are accepted, with the encoder given. -/
def encAt (op : BitVec 3) (shift n : Word) (e : EncRegs) (l : List Sym) : State :=
  { unitAt op shift l with busy := true, inOff := n, enc := e }

/-- As `unitAt`, inside a message of which `n` bytes are accepted, with the decoder given. -/
def decAt (op : BitVec 3) (shift n : Word) (d : DecRegs) (l : List Sym) : State :=
  { unitAt op shift l with busy := true, inOff := n, dec := d }

/-- The consumer takes nothing. -/
def stalled (s : State) : State :=
  { s with host := { s.host with outReady := false } }

/-- The schedule says whose turns come next. -/
def withTurns (l : List Agent) (s : State) : State :=
  { s with host := { s.host with sched := l } }

/-- The host's script. -/
def withScript (l : List HostAction) (s : State) : State :=
  { s with host := { s.host with script := l } }

/-- Accesses offered and not yet performed. -/
def withAccesses (l : List CfgAccess) (s : State) : State :=
  { s with host := { s.host with cfgPend := l } }

/-- An open run of `n` bytes `v`. -/
def openRun (v n : Byte) : EncRegs :=
  { EncRegs.reset with haveRun := true, cur := v, cnt := n }

/-- The expander holding `n` repetitions of `v`. -/
def expanding (v n : Byte) : DecRegs :=
  { DecRegs.reset with rxV := v, rem := n }

/-- What the consumer has after one instruction. -/
def outAfter (i : Instr) (s : State) : Option (List Sym) :=
  (nextOf (exec i s)).map fun t => t.host.out

/-- What the host has read after one instruction. -/
def readAfter (i : Instr) (s : State) : Option (List Word) :=
  (nextOf (exec i s)).map fun t => t.host.rdata

/-! ### Well-formedness: a term that each check refuses (R70, R83) -/

theorem test_ill_formed_op_refused :
    RawWord.wellFormed 32 ⟨.op, 8⟩ = false ∧ (decode 32 ⟨.op, 8⟩).toOption = none := by decide
theorem test_ill_formed_sym_refused :
    RawWord.wellFormed 32 ⟨.sym, 0x200⟩ = false ∧ (decode 32 ⟨.sym, 0x200⟩).toOption = none := by decide
theorem test_ill_formed_frame_refused :
    RawWord.wellFormed 32 ⟨.frame, 0x10000⟩ = false ∧ (decode 32 ⟨.frame, 0x10000⟩).toOption = none := by decide
/-- `4 + W` bits: what a unit of 32 bits takes, a unit of 16 bits has no wires for. -/
theorem test_ill_formed_cfg_refused :
    RawWord.wellFormed 32 ⟨.cfg, 0x1000000000⟩ = false ∧ (decode 32 ⟨.cfg, 0x1000000000⟩).toOption = none ∧
    RawWord.wellFormed 16 ⟨.cfg, 0x100000⟩ = false ∧ RawWord.wellFormed 32 ⟨.cfg, 0x100000⟩ = true := by decide
/-- The data of a write is `W` bits. -/
theorem test_ill_formed_write_refused :
    Instr.wellFormed 16 (.cfgWrite 1 0x10000) = false ∧ Instr.wellFormed 16 (.cfgWrite 1 0xFFFF) = true ∧
    Instr.wellFormed 32 (.cfgWrite 1 0x10000) = true := by decide
theorem test_rejections_have_names :
    decode 32 ⟨.op, 8⟩ = .error .opTooWide ∧ decode 32 ⟨.sym, 0x200⟩ = .error .symTooWide ∧
    decode 32 ⟨.frame, 0x10000⟩ = .error .frameTooWide ∧ decode 32 ⟨.cfg, 0x1000000000⟩ = .error .cfgTooWide :=
  ⟨rfl, rfl, rfl, rfl⟩
theorem test_widest_words_fit :
    RawWord.wellFormed 32 ⟨.op, 7⟩ = true ∧ RawWord.wellFormed 32 ⟨.sym, 0x1FF⟩ = true ∧
    RawWord.wellFormed 32 ⟨.frame, 0xFFFF⟩ = true ∧ RawWord.wellFormed 32 ⟨.cfg, 0xFFFFFFFFF⟩ = true := by decide

/-! ### Decoding: words written out from the encoding tables (R71 to R74, R84; the programs of spec/95) -/

theorem test_decode_cenc : decodeOp 0b000#3 = .cenc := by decide
theorem test_decode_cdec : decodeOp 0b001#3 = .cdec := by decide
theorem test_decode_rlec : decodeOp 0b010#3 = .rlec := by decide
theorem test_decode_rled : decodeOp 0b011#3 = .rled := by decide
theorem test_decode_mixe : decodeOp 0b100#3 = .mixe := by decide
theorem test_decode_mixd : decodeOp 0b101#3 = .mixd := by decide
theorem test_decode_rsv6 : decodeOp 0b110#3 = .rsv6 := by decide
theorem test_decode_rsv7 : decodeOp 0b111#3 = .rsv7 := by decide
/-- Bit 8 is 0, bits 7:0 are `0x61`. -/
theorem test_decode_data : decodeHostWord (.sym 0b0_0110_0001#9) = .data 0x61#8 := by decide
/-- Bit 8 is 1, bits 7:0 are the status. -/
theorem test_decode_end :
    decodeHostWord (.sym 0b1_0000_0000#9) = .endSym 0x00#8 ∧ decodeHostWord (.sym 0b1_0000_0010#9) = .endSym 0x02#8 := by
  decide
/-- The value stands in bits 15:8, the count in bits 7:0. -/
theorem test_decode_rep : decodeHostWord (.frame 0b0110_0100_0000_0010#16) = .rep 0x64#8 0x02#8 := by decide
/-- `cfg_we=1 cfg_addr=001 cfg_wdata=0xFFFFFFE9` (Program 4, line 5). -/
theorem test_decode_cfgWrite : decodeHostWord (.cfg 0b1001#4 0xFFFFFFE9) = .cfgWrite 1#3 0xFFFFFFE9 := by decide
/-- `cfg_we=0 cfg_addr=010` (Program 4, line 4); the data is ignored. -/
theorem test_decode_cfgRead :
    decodeHostWord (.cfg 0b0010#4 0) = .cfgRead 2#3 ∧ decodeHostWord (.cfg 0b0010#4 0x55) = .cfgRead 2#3 := by decide
/-- `DATA(d)` is `d` and `END(s)` is `0x100 + s` as numbers (R71). -/
theorem test_symbol_bits :
    bitsOfSym (.data 0x61) = 0x061#9 ∧ bitsOfSym (.eom 0x02) = 0x102#9 ∧
    symOfBits 0x1FF#9 = .eom 0xFF ∧ symOfBits 0x0FF#9 = .data 0xFF := by decide
/-- An access is `w aaa` followed by the data bits (R74), here 32 of them and then 16. -/
theorem test_encode_words :
    encode 32 .mixd = ⟨.op, 5⟩ ∧ encode 32 (.endSym 0x01) = ⟨.sym, 0x101⟩ ∧
    encode 32 (.rep 0x64 0x02) = ⟨.frame, 0x6402⟩ ∧ encode 32 (.cfgWrite 1 0xFFFFFFE9) = ⟨.cfg, 0x9FFFFFFE9⟩ ∧
    encode 16 (.cfgWrite 1 0xFFE9) = ⟨.cfg, 0x9FFE9⟩ ∧ encode 16 (.cfgRead 2) = ⟨.cfg, 0x20000⟩ := by decide
theorem test_decode_access_numbers :
    decode 32 ⟨.cfg, 0x9FFFFFFE9⟩ = .ok (.cfgWrite 1 0xFFFFFFE9) ∧
    decode 32 ⟨.cfg, 0x200000000⟩ = .ok (.cfgRead 2) ∧
    decode 16 ⟨.cfg, 0x9FFE9⟩ = .ok (.cfgWrite 1 0xFFE9) := ⟨rfl, rfl, rfl⟩

/-! ### Table words, and where a step fetches them -/

theorem test_table_words :
    decodeTableWord 8 0b101 = some .mixd ∧ decodeTableWord 16 0x061 = some (.data 0x61) ∧
    decodeTableWord 16 0x100 = some (.endSym 0x00) ∧ decodeTableWord 16 0x6402 = some (.rep 0x64 0x02) ∧
    decodeTableWord 8 0b1001 = some (.cfgWrite 1 0) ∧ decodeTableWord 4 0b0010 = some (.cfgRead 2) ∧
    decodeTableWord 3 0b111 = some .rsv7 ∧ decodeTableWord 9 0x061 = some (.data 0x61) ∧
    decodeTableWord 8 0x10 = none ∧ decodeTableWord 32 0 = none := by decide
theorem test_placed_op_word_runs :
    nextOf (step (State.reset.withFetchWord 8 0b110)) = some { State.reset with op := 6 } := by decide
theorem test_placed_symbol_runs :
    nextOf (step (State.reset.withFetchWord 16 0x061)) =
      some { State.reset with busy := true, inOff := 1, host := { HostSide.silent with out := [.data 0x61] } } := by decide
theorem test_placed_access_runs :
    nextOf (step (State.reset.withFetchWord 4 0b0100)) =
      some { State.reset with host := { HostSide.silent with rdata := [0] } } := by decide

/-! ### Shift residues: V-K -/

theorem test_vk_residues :
    shiftResidue 32 0 = 0 ∧ shiftResidue 32 3 = 3 ∧ shiftResidue 32 25 = 25 ∧ shiftResidue 32 26 = 0 ∧
    shiftResidue 32 29 = 3 ∧ shiftResidue 32 0xFFFFFFE9 = 3 ∧ shiftResidue 32 0xFFFFFFFF = 25 ∧
    shiftResidue 32 0x80000000 = 2 ∧ shiftResidue 32 0x7FFFFFFF = 23 ∧ shiftResidue 32 100 = 22 ∧
    shiftResidue 32 0xFFFFFF9C = 4 ∧ shiftResidue 32 0xFFFFFFE6 = 0 ∧ shiftResidue 32 0xFFFFFFE5 = 25 := by decide
/-- The same rule at `W = 16`, and why a narrower signed shift is sign-extended (R175). -/
theorem test_vk_residues_16 :
    shiftResidue 16 0xFFE9 = 3 ∧ shiftResidue 16 0x8000 = 18 ∧ shiftResidue 16 0x7FFF = 7 ∧
    shiftResidue 16 0xFFFF = 25 ∧ shiftResidue 32 0x8000 = 8 := by decide
/-- A unit of 16 bits: `WR SHIFT, -23; RD KRES`. -/
theorem test_unit_of_16_bits_shift :
    (nextOf (exec (.cfgWrite 1 0xFFE9) (State.resetWith 16 HostSide.silent))).map (fun t => (t.shift, t.cfgValue 4)) =
      some (0xFFE9, 3) := by decide
/-- A unit of 16 bits: `IN_OFF` wraps at `2^W` (R28, R215). -/
theorem test_unit_of_16_bits_wraps :
    (nextOf (exec (.data 0x61)
      { State.resetWith 16 HostSide.silent with busy := true, inOff := 0xFFFF })).map (fun t => t.inOff) = some 0 := by
  decide
/-- A unit of 16 bits: the offset of a message of `2^W + 1` bytes is 0, the true offset mod `2^W` (R27, R215). -/
theorem test_unit_of_16_bits_offset :
    (nextOf (exec .rled
      { State.resetWith 16 HostSide.silent with
        op := 3, busy := true, inOff := 1, dec := { DecRegs.reset with endP := true, endSt := 0x01 } })).map
      (fun t => t.errOffset) = some 0 := by decide

/-! ### Substitution: V-C -/

theorem test_vc_encode :
    subEnc 3 0x61 = 0x64 ∧ subEnc 3 0x7A = 0x63 ∧ subEnc 3 0x78 = 0x61 ∧ subEnc 3 0x5A = 0x43 ∧
    subEnc 25 0x41 = 0x5A ∧ subEnc 13 0x4E = 0x41 ∧ subEnc 0 0x6D = 0x6D ∧ subEnc 3 0x40 = 0x40 ∧
    subEnc 3 0x5B = 0x5B ∧ subEnc 3 0x60 = 0x60 ∧ subEnc 3 0x7B = 0x7B ∧ subEnc 3 0xE1 = 0xE1 ∧
    subEnc 3 0xC1 = 0xC1 ∧ subEnc 3 0xFF = 0xFF := by decide
theorem test_vc_decode :
    subDec 3 0x61 = 0x78 ∧ subDec 3 0x7A = 0x77 ∧ subDec 3 0x41 = 0x58 ∧ subDec 1 0x7A = 0x79 ∧
    subDec 25 0x5A = 0x41 ∧ subDec 25 0x61 = 0x62 ∧ subDec 0 0x6D = 0x6D ∧ subDec 3 0x30 = 0x30 ∧
    subDec 3 0x00 = 0x00 := by decide

/-! ### One step of each operation -/

/-- V-C5. -/
theorem test_cenc_wraps_upper : outAfter .cenc (unitAt 0 3 [.data 0x5A]) = some [.data 0x43] := by decide
/-- V-C35: the empty message; the status the host drives is ignored (R82). -/
theorem test_cenc_empty_message :
    nextOf (exec .cenc (unitAt 0 5 [.eom 0x7F])) =
      some { unitAt 0 5 [] with done := true, host := { HostSide.silent with out := [.eom 0x00] } } := by decide
/-- V-C1: decoding wraps downwards. -/
theorem test_cdec_wraps_lower : outAfter .cdec (unitAt 1 3 [.data 0x61]) = some [.data 0x78] := by decide
/-- V-C22. -/
theorem test_cdec_other_byte_passes : outAfter .cdec (unitAt 1 3 [.data 0xE1]) = some [.data 0xE1] := by decide
/-- Program 3, step 256: the split. -/
theorem test_rlec_splits_at_255 :
    (nextOf (exec .rlec (encAt 2 0 255 (openRun 0x61 255) [.data 0x61]))).map (fun t => (t.enc, t.inOff)) =
      some ({ openRun 0x61 1 with fsN := 2, fsV := 0x61, fsC := 255 }, 256) := by decide
/-- Program 3, step 262: the end closes the run. -/
theorem test_rlec_end_closes_run :
    (nextOf (exec .rlec (encAt 2 0 257 (openRun 0x62 1) [.eom 0x00]))).map (fun t => (t.enc, t.busy)) =
      some ({ EncRegs.reset with fsN := 2, fsV := 0x62, fsC := 1, endP := true }, true) := by decide
/-- Program 2, message 1, step 6: a dangling value byte. -/
theorem test_rled_dangling_byte :
    (nextOf (exec .rled (decAt 3 0 3 { DecRegs.reset with ph := true, fv := 0x62 } [.eom 0x00]))).map (fun t => t.dec) =
      some { DecRegs.reset with endP := true, endSt := 0x01 } := by decide
/-- Program 2, message 1, step 7: the record of the error. -/
theorem test_rled_error_end :
    nextOf (exec .rled (decAt 3 0 3 { DecRegs.reset with endP := true, endSt := 0x01 } [])) =
      some { unitAt 3 0 [] with
        done := true, lastStatus := 0x01, errOffset := 2, host := { HostSide.silent with out := [.eom 0x01] } } := by
  decide
/-- Program 1, message 1, step 3: `0x62` enters as `0x65`. -/
theorem test_mixe_substitutes_on_the_way_in :
    (nextOf (exec .mixe (encAt 4 3 2 (openRun 0x64 2) [.data 0x62]))).map (fun t => t.enc) =
      some { openRun 0x65 1 with fsN := 2, fsV := 0x64, fsC := 2 } := by decide
/-- V-P6: the count byte `0x41` is not substituted. -/
theorem test_mixe_count_byte_untouched :
    outAfter .mixe (encAt 4 3 65 { EncRegs.reset with fsN := 1, fsV := 0x44, fsC := 0x41, endP := true } []) =
      some [.data 0x41] := by decide
/-- Program 1, message 2, step 3. -/
theorem test_mixd_substitutes_on_the_way_out :
    (nextOf (exec .mixd (decAt 5 3 2 (expanding 0x64 2) []))).map (fun t => (t.dec, t.host.out)) =
      some (expanding 0x64 1, [.data 0x61]) := by decide
/-- V-P9: the error passes `SCU` unchanged. -/
theorem test_mixd_error_unchanged :
    (nextOf (exec .mixd (decAt 5 3 3 { DecRegs.reset with endP := true, endSt := 0x01 } []))).map
      (fun t => (t.host.out, t.errOffset)) = some ([.eom 0x01], 2) := by decide
/-- Program 4, line 2. -/
theorem test_rsv6_discards :
    nextOf (exec .rsv6 (unitAt 6 0 [.data 0x61])) = some { unitAt 6 0 [] with busy := true, inOff := 1 } := by decide
/-- V-P14, and the `STATUS` word of V-P13. -/
theorem test_rsv7_end_fails :
    (nextOf (exec .rsv7 (unitAt 7 0 [.eom 0x00]))).map (fun t => (t.host.out, t.cfgValue 2, t.errOffset)) =
      some ([.eom 0x02], 0x00000202, 0) := by decide

/-! ### Symbols, frames and accesses -/

/-- V-G5: `BUSY` and the phase after the first byte. -/
theorem test_data_accepted :
    (nextOf (exec (.data 0x61) (unitAt 3 0 []))).map (fun t => (t.cfgValue 2, t.dec.ph, t.dec.fv, t.inOff)) =
      some (0x00000001, true, 0x61, 1) := by decide
/-- A symbol driven while a frame is held waits (R114, R65). -/
theorem test_data_waits :
    (nextOf (exec (.data 0x62) (encAt 2 0 2 { openRun 0x62 1 with fsN := 2, fsV := 0x61, fsC := 1 } []))).map
      (fun t => (t.host.inPend, t.inOff)) = some ([.data 0x62], 2) := by decide
/-- V-D1: an end at a frame boundary. -/
theorem test_end_at_frame_boundary :
    (nextOf (exec (.endSym 0x33) (unitAt 3 0 []))).map (fun t => (t.dec, t.busy, t.done)) =
      some ({ DecRegs.reset with endP := true }, true, false) := by decide
/-- V-D2, the frame `65 03`: the value is accepted, the count waits (R6: one symbol a step). -/
theorem test_rep_drives_two_symbols :
    nextOf (exec (.rep 0x65 0x03) (unitAt 3 0 [])) =
      some { unitAt 3 0 [.data 0x03] with
        busy := true, inOff := 1, dec := { DecRegs.reset with ph := true, fv := 0x65 } } := by
  decide
/-- Off a frame boundary the value byte is the count of the frame in progress. -/
theorem test_rep_off_frame_boundary :
    (nextOf (exec (.rep 0x02 0x65) (decAt 3 0 1 { DecRegs.reset with ph := true, fv := 0x64 } []))).map
      (fun t => (t.dec, t.host.inPend)) = some (expanding 0x64 2, [.data 0x65]) := by decide
/-- While repetitions are pending both bytes wait. -/
theorem test_rep_waits :
    (nextOf (exec (.rep 0x65 0x03) (decAt 3 0 2 (expanding 0x64 1) []))).map (fun t => (t.dec, t.host.inPend)) =
      some (expanding 0x64 1, [.data 0x65, .data 0x03]) := by decide
/-- An older byte that waits is accepted first. -/
theorem test_data_behind_older :
    (nextOf (exec (.data 0x62) (unitAt 0 0 [.data 0x61]))).map (fun t => (t.host.out, t.host.inPend)) =
      some ([.data 0x61], [.data 0x62]) := by decide
/-- V-G2: `CTRL` keeps bits 2:0. -/
theorem test_cfgWrite_ctrl_keeps_three_bits :
    (nextOf (exec (.cfgWrite 0 0xFFFFFFFD) State.reset)).map (fun t => t.cfgValue 0) = some 0x00000005 := by decide
/-- V-G6: a write during a message is held. -/
theorem test_cfgWrite_held :
    (nextOf (exec (.cfgWrite 1 7) (decAt 3 0 1 { DecRegs.reset with ph := true, fv := 0x61 } []))).map
      (fun t => (t.shift, t.host.cfgPend)) = some (0, [.write 1 7]) := by decide
/-- V-G3: `KRES` after a negative shift. -/
theorem test_cfgRead_kres : readAfter (.cfgRead 4) (unitAt 0 0xFFFFFFE9 []) = some [3] := by decide
/-- V-G8: the record of V-D6 as `STATUS`. -/
theorem test_cfgRead_status :
    readAfter (.cfgRead 2) { State.reset with op := 2, done := true, lastStatus := 0x01, errOffset := 2 } =
      some [0x00000102] := by decide

/-! ### The reference functions on the vectors -/

/-- V-S2, V-E1, V-E4, V-E5. -/
theorem test_compress_vectors :
    compress [0x64, 0x64, 0x65, 0x65, 0x65, 0x66] = [0x64, 0x02, 0x65, 0x03, 0x66, 0x01] ∧ compress [] = [] ∧
    compress [0x61, 0x62, 0x61] = [0x61, 0x01, 0x62, 0x01, 0x61, 0x01] ∧ compress [0x00, 0x00] = [0x00, 0x02] := by decide
/-- V-E8 to V-E11: the frames of one run of 255, 256, 510 and 511. -/
theorem test_long_run_frames :
    frames 0x61 255 = [0x61, 0xFF] ∧ frames 0x61 256 = [0x61, 0xFF, 0x61, 0x01] ∧
    frames 0x61 510 = [0x61, 0xFF, 0x61, 0xFF] ∧ frames 0x61 511 = [0x61, 0xFF, 0x61, 0xFF, 0x61, 0x01] := by decide
/-- V-D2, V-D3, V-D5, V-D13. -/
theorem test_decompress_vectors :
    decompress [0x64, 0x02, 0x65, 0x03, 0x66, 0x01] = .ok [0x64, 0x64, 0x65, 0x65, 0x65, 0x66] ∧
    decompress [0x61] = .err 0x01 0 ∧ decompress [0x61, 0x00, 0x62, 0x02] = .ok [0x62, 0x62] ∧
    decompress [0x61, 0x02, 0x62, 0x00, 0x63] = .err 0x01 4 := by decide
/-- V-P1, V-P3, V-P11, V-P13. -/
theorem test_message_results :
    messageResult 4 3 [0x61, 0x61, 0x62, 0x62, 0x62, 0x63] = .ok [0x64, 0x02, 0x65, 0x03, 0x66, 0x01] ∧
    messageResult 4 3 [0x48, 0x65, 0x6C, 0x6C, 0x6F] = .ok [0x4B, 0x01, 0x68, 0x01, 0x6F, 0x02, 0x72, 0x01] ∧
    messageResult 5 4 [0x64, 0x02, 0x65, 0x03, 0x66, 0x01] = .ok [0x7A, 0x7A, 0x61, 0x61, 0x61, 0x62] ∧
    messageResult 6 0 [0x61, 0x62, 0x63] = .err 0x02 0 := by decide

/-! ### Witnesses: for each statement with hypotheses, states and operands that meet them, each clause at its boundaries -/

/-- A state in the middle of a message: the encoder holds a frame and has an open run. -/
def midEncode (op : BitVec 3) : State :=
  encAt op 3 3 { openRun 0x65 1 with fsN := 2, fsV := 0x64, fsC := 2 } [.data 0x62]

/-- A state in the middle of a message: the expander has one repetition left. -/
def midDecode (op : BitVec 3) : State :=
  decAt op 3 2 (expanding 0x64 1) [.data 0x65]

/-- `DecodeRejectsExactlyTooWideWords`: the widest word of each format and the first that is too wide. -/
theorem witness_decodeRejects :
    7 < 2 ^ Format.op.width 32 ∧ 2 ^ Format.op.width 32 ≤ 8 ∧
    0x1FF < 2 ^ Format.sym.width 32 ∧ 2 ^ Format.sym.width 32 ≤ 0x200 ∧
    0xFFFF < 2 ^ Format.frame.width 32 ∧ 2 ^ Format.frame.width 32 ≤ 0x10000 ∧
    0xFFFFFFFFF < 2 ^ Format.cfg.width 32 ∧ 2 ^ Format.cfg.width 32 ≤ 0x1000000000 ∧
    0xFFFFF < 2 ^ Format.cfg.width 16 ∧ 2 ^ Format.cfg.width 16 ≤ 0x100000 := by
  decide

/-- `DecodeOfEncodeIsIdentity`: the widest data of a write, for two widths. -/
theorem witness_decodeOfEncode :
    Instr.wellFormed 16 (.cfgWrite 7 0xFFFF) = true ∧ Instr.wellFormed 32 (.cfgWrite 7 0xFFFFFFFF) = true ∧
    Instr.wellFormed 32 .rsv7 = true := by
  decide

/-- `EncodeOfDecodeGivesWordBack`: both cases of its conclusion. -/
theorem witness_encodeOfDecode :
    decode 32 ⟨.frame, 0x6402⟩ = .ok (.rep 0x64 0x02) ∧ decode 32 ⟨.cfg, 0x200000005⟩ = .ok (.cfgRead 2) ∧
    5 < 2 ^ 32 ∧ encode 32 (.cfgRead 2) ≠ ⟨.cfg, 0x200000005⟩ :=
  ⟨rfl, rfl, by decide, by decide⟩

/-- `PortWordsDecodeAsTheirNumbers`: the widest data of an access. -/
theorem witness_portWords :
    0xFFFF < 2 ^ 16 ∧ (decode 16 ⟨.cfg, (0b1111#4).toNat * 2 ^ 16 + 0xFFFF⟩).toOption = some (.cfgWrite 7 0xFFFF) := by
  decide

/-- `StepRunsHostWord`: both forms of the host's turn. -/
theorem witness_stepRunsHostWord :
    (∃ (s : State) (w : HostWord), s.host.script = [.word w] ∧ s.host.sched.head? = some .host) ∧
    ∃ (s : State) (w : HostWord), s.host.script = [.word w] ∧ s.host.sched = [] ∧ s.portEnabled = false ∧
      s.unitEnabled = false :=
  ⟨⟨withTurns [.host] (withScript [.word (.sym 0x61)] State.reset), _, rfl, by decide⟩,
    withScript [.word (.sym 0x61)] State.reset, _, rfl, by decide⟩

/-- `StepRunsSelectedOperation`: the unit's turn given, taken because it can move, and taken because nobody can. -/
theorem witness_stepRunsSelectedOperation :
    (withTurns [.unit] (midEncode 4)).host.sched.head? = some .unit ∧
    ((midEncode 4).host.sched = [] ∧ (midEncode 4).portEnabled = false ∧ (midEncode 4).unitEnabled = true) ∧
    (stalled (midEncode 4)).host.sched = [] ∧ (stalled (midEncode 4)).portEnabled = false ∧
      (stalled (midEncode 4)).unitEnabled = false ∧ (stalled (midEncode 4)).host.script = [] := by
  decide

/-- `StepOfOtherTurns`: its four clauses, the third with nothing offered and with a held write. -/
theorem witness_stepOfOtherTurns :
    (∃ s : State, s.host.sched.head? = some .host ∧ s.host.script = [.ready false]) ∧
    (∃ s : State, s.host.sched.head? = some .host ∧ s.host.script = []) ∧
    (∃ s : State, s.host.sched.head? = some .port ∧ s.host.cfgPend = []) ∧
    (∃ s : State, s.host.sched.head? = some .port ∧ s.host.cfgPend = [.write 1 7] ∧ s.busy = true) ∧
    State.reset.host.sched = [] ∧ State.reset.host.script = [] ∧ State.reset.host.cfgPend = [] ∧
      State.reset.unitEnabled = false :=
  ⟨⟨withTurns [.host] (withScript [.ready false] State.reset), by decide⟩,
    ⟨withTurns [.host] State.reset, by decide⟩, ⟨withTurns [.port] State.reset, by decide⟩,
    ⟨withTurns [.port] (withAccesses [.write 1 7] (midEncode 4)), by decide⟩, by decide⟩

/-- `PlacedWordRunsNext`: a word of each format. -/
theorem witness_placedWordRunsNext :
    decodeTableWord 3 0b100 = some .mixe ∧ decodeTableWord 9 0x1FF = some (.endSym 0xFF) ∧
    decodeTableWord 16 0xFFFF = some (.rep 0xFF 0xFF) ∧ decodeTableWord 8 0b1111 = some (.cfgWrite 7 0) := by
  decide

/-- `ResetEventClearsEveryField`: reset as the host's given turn, and by the default order, in the middle of a message. -/
theorem witness_resetIsNext :
    (withTurns [.host] (withScript [.reset] (midEncode 4))).ResetIsNext ∧
    (withScript [.reset] (stalled (midEncode 4))).ResetIsNext := by
  decide

/-- `WidthIsFixedAndReadsFit`, `StepKeepsInvariant` and `StepKeepsPhaseParity`: a step of the encoder. -/
theorem witness_stepKeepsInvariant_enc :
    (midEncode 4).Inv ∧ (midEncode 4).PhaseInv ∧ (nextOf (step (midEncode 4))).isSome = true :=
  ⟨by decide, by decide, by decide⟩

/-- The same three: a step of the decoder, and reset in the middle of a message. -/
theorem witness_stepKeepsInvariant_dec :
    (midDecode 3).Inv ∧ (midDecode 3).PhaseInv ∧ (nextOf (step (midDecode 3))).isSome = true ∧
    (nextOf (step (withTurns [.host] (withScript [.reset] (midDecode 3))))).isSome = true :=
  ⟨by decide, by decide, by decide, by decide⟩

/-- `ReachableStatesMeetInvariant`: two steps from reset of the least width, both host words. -/
theorem witness_reachable :
    ∃ (w : Nat) (h : HostSide) (t : State), 16 ≤ w ∧
      Sys2Proof.core.run 2 (State.resetWith w h) = .next t ∧ t.inOff = 1 :=
  ⟨16, { HostSide.silent with script := [.word (.cfg 0b1000#4 2), .word (.sym 0x61)] }, _, by decide, rfl, by decide⟩

/-- `CfgWriteStoresOrIsHeld`: a free port, idle and busy; each index of the conclusion at its boundary. -/
theorem witness_cfgWrite :
    State.reset.host.cfgPend = [] ∧ State.reset.busy = false ∧ (midEncode 4).host.cfgPend = [] ∧
    (midEncode 4).busy = true ∧
    nextOf (exec (.cfgWrite 0 0xF) State.reset) = some { State.reset with op := 7 } ∧
    nextOf (exec (.cfgWrite 1 0x80000000) State.reset) = some { State.reset with shift := 0x80000000 } ∧
    nextOf (exec (.cfgWrite 2 0xF) State.reset) = some State.reset ∧
    nextOf (exec (.cfgWrite 7 0xF) State.reset) = some State.reset := by
  decide

/-- `CfgAccessesKeepOrder`: behind a held write, behind a read, behind a write that can be performed. -/
theorem witness_cfgAccessesKeepOrder :
    (∃ s : State, s.host.cfgPend = [.write 1 7] ∧ s.busy = true) ∧
    (∃ s : State, s.host.cfgPend = [.read 1] ∧ s.busy = true ∧
      ∃ u, exec (CfgAccess.read 1).instr { s with host := { s.host with cfgPend := [] } } = .next u) ∧
    (∃ s : State, s.host.cfgPend = [.write 1 7, .read 1] ∧ s.busy = false ∧
      ∃ u, exec (CfgAccess.write 1 7).instr { s with host := { s.host with cfgPend := [] } } = .next u) :=
  ⟨⟨withAccesses [.write 1 7] (midEncode 4), by decide⟩,
    ⟨withAccesses [.read 1] (midEncode 4), by decide, by decide, _, rfl⟩,
    ⟨withAccesses [.write 1 7, .read 1] State.reset, by decide, by decide, _, rfl⟩⟩

/-- `CfgReadReturnsRegister`: every index, in a state after an error (V-D6 with shift -23), and while busy. -/
theorem witness_cfgRead :
    let s : State := { unitAt 3 0xFFFFFFE9 [] with done := true, lastStatus := 0x01, errOffset := 2 }
    s.host.cfgPend = [] ∧ readAfter (.cfgRead 0) s = some [3] ∧ readAfter (.cfgRead 1) s = some [0xFFFFFFE9] ∧
    readAfter (.cfgRead 2) s = some [0x0102] ∧ readAfter (.cfgRead 3) s = some [2] ∧
    readAfter (.cfgRead 4) s = some [3] ∧ readAfter (.cfgRead 5) s = some [0] ∧ readAfter (.cfgRead 7) s = some [0] ∧
    readAfter (.cfgRead 2) { s with busy := true } = some [0x0103] := by
  decide

/-- `HeldWriteRunsWhenBusyClears`: with no turn given, and with the port's turn given. -/
theorem witness_heldWrite :
    (∀ s ∈ [withAccesses [.write 1 7, .read 1] State.reset,
        withTurns [.port] (withAccesses [.write 1 7, .read 1] State.reset)],
      s.host.cfgPend = [.write 1 7, .read 1] ∧ s.busy = false ∧
      (s.host.sched = [] ∨ s.host.sched.head? = some .port)) := by
  decide

/-- `BusyStepKeepsConfiguration`: a step of the unit, and one that resets. -/
theorem witness_busyStep :
    (midEncode 4).busy = true ∧ (nextOf (step (midEncode 4))).isSome = true ∧ ¬ (midEncode 4).ResetIsNext ∧
    (withTurns [.host] (withScript [.reset] (midEncode 4))).busy = true ∧
    (nextOf (step (withTurns [.host] (withScript [.reset] (midEncode 4))))).isSome = true := by
  decide

/-- `RecordChangesOnlyAtEndOrReset`: a step that emits an end, with the shape of its last clause, and one that emits a
byte. -/
theorem witness_recordChanges :
    ((nextOf (step (unitAt 6 0 [.eom 0x00]))).map fun t => (t.host.out, t.lastStatus)) = some ([.eom 0x02], 0x02) ∧
    ([.eom 0x02] : List Sym) = [] ++ .eom 0x02 :: [] ∧ (∀ x, Sym.eom x ∉ ([] : List Sym)) ∧
    ((nextOf (step (midDecode 3))).map fun t => t.host.out) = some [.data 0x64] ∧
    (∀ st, Sym.eom st ∉ ([.data 0x64] : List Sym)) :=
  ⟨by decide, by decide, by simp, by decide, by simp⟩

/-- `SymbolsAreNeitherLostNorReordered`: a pass (one taken, one new), an accept, an emit, a wait, and a read. -/
theorem witness_symbols :
    ((nextOf (exec (.data 0x61) (unitAt 0 0 []))).map fun t => (t.host.inPend, t.host.out)) = some ([], [.data 0x61]) ∧
    ((nextOf (exec (.data 0x61) (unitAt 2 0 []))).map fun t => (t.host.inPend, t.host.out)) = some ([], []) ∧
    ((nextOf (exec .mixe (midEncode 4))).map fun t => (t.host.inPend, t.host.out)) =
      some ([.data 0x62], [.data 0x64]) ∧
    ((nextOf (exec .mixe (stalled (midEncode 4)))).map fun t => (t.host.inPend, t.host.out)) = some ([.data 0x62], []) ∧
    (([] : List CfgAccess) ++ accesses (.cfgRead 4)).head? = some (.read 4) := by
  decide

/-- `UnselectedUnitsKeepRegisters` and the frames over all instructions: every instruction answers a next state. -/
theorem witness_everyInstructionAnswers (i : Instr) (s : State) : ∃ t, exec i s = .next t := by
  cases i <;> exact ⟨_, rfl⟩

/-- `PortViewOfGuards`: states that meet the invariant, quiescent and not, with a consumer that can take a symbol. -/
theorem witness_portView :
    (midEncode 2).Inv ∧ ¬ (midEncode 2).Quiescent ∧ (midEncode 2).host.outReady = true ∧
    (midDecode 5).Inv ∧ ¬ (midDecode 5).Quiescent ∧ State.reset.Inv ∧ State.reset.Quiescent ∧
    (unitAt 6 0 [.eom 0x00]).outValid (pathOf 6) = true ∧ (unitAt 6 0 [.data 0x61]).outValid (pathOf 6) = false ∧
    (stalled (unitAt 7 0 [])).inReady (pathOf 7) (.data 0x61) = true ∧
    (stalled (unitAt 7 0 [])).inReady (pathOf 7) (.eom 0x00) = false :=
  ⟨by decide, by decide, by decide, by decide, by decide, by decide, by decide, by decide, by decide, by decide,
    by decide⟩

/-- `WaitingOutputSymbolIsHeld`: a state under `MIXE`. -/
theorem witness_waitingSymbol_mixe :
    (stalled (midEncode 4)).Inv ∧ (stalled (midEncode 4)).host.outReady = false ∧
    (stalled (midEncode 4)).outSym (pathOf 4) = some (.data 0x64) ∧ ¬ (stalled (midEncode 4)).ResetIsNext ∧
    (nextOf (step (stalled (midEncode 4)))).isSome = true :=
  ⟨by decide, by decide, by decide, by decide, by decide⟩

/-- `WaitingOutputSymbolIsHeld`: a state under `MIXD`, where the symbol on `out` is the substituted one. -/
theorem witness_waitingSymbol_mixd :
    (stalled (midDecode 5)).Inv ∧ (stalled (midDecode 5)).host.outReady = false ∧
    (stalled (midDecode 5)).outSym (pathOf 5) = some (.data 0x61) ∧ ¬ (stalled (midDecode 5)).ResetIsNext ∧
    (nextOf (step (stalled (midDecode 5)))).isSome = true :=
  ⟨by decide, by decide, by decide, by decide, by decide⟩

/-- `SubstitutionFormulas` and `SubstitutionKeepsClass` (the third list is a message without letters): the first
and the last letter of each class, the bytes beside them, and the residue of the last clause at both ends. -/
theorem witness_substitution :
    (∀ b ∈ ([0x41, 0x5A] : List Byte), 0x41 ≤ b.toNat ∧ b.toNat ≤ 0x5A) ∧
    (∀ b ∈ ([0x61, 0x7A] : List Byte), 0x61 ≤ b.toNat ∧ b.toNat ≤ 0x7A) ∧
    (∀ b ∈ ([0x00, 0x40, 0x5B, 0x60, 0x7B, 0xFF] : List Byte), cls b = .other ∧
      ¬ (0x41 ≤ b.toNat ∧ b.toNat ≤ 0x5A) ∧ ¬ (0x61 ≤ b.toNat ∧ b.toNat ≤ 0x7A)) ∧
    (0 : Fin 26).val = (26 - (0 : Fin 26).val) % 26 ∧ (25 : Fin 26).val = (26 - (1 : Fin 26).val) % 26 := by
  decide

/-- `ShiftAliasesAgree`: two shifts with one residue, and an instruction that is no access. -/
theorem witness_shiftAliases :
    shiftResidue (unitAt 4 0xFFFFFFE9 []).width 29 =
      shiftResidue (unitAt 4 0xFFFFFFE9 []).width (unitAt 4 0xFFFFFFE9 []).shift ∧
    (29 : Word) ≠ 0xFFFFFFE9 ∧
    (∀ a x, Instr.data 0x61 ≠ .cfgWrite a x) ∧ (∀ a, Instr.data 0x61 ≠ .cfgRead a) ∧
    ∃ t, exec (.data 0x61) (unitAt 4 0xFFFFFFE9 []) = .next t :=
  ⟨by decide, by decide, by simp, by simp, _, rfl⟩

/-- `CipherOperationsPassSymbols` and `CipherOperationsWait`: a byte, an end, nothing offered, a consumer not ready. -/
theorem witness_cipher :
    (unitAt 0 3 [.data 0x7A, .eom 0x00]).host.outReady = true ∧
    (unitAt 0 3 [.data 0x7A, .eom 0x00]).host.inPend = .data 0x7A :: [.eom 0x00] ∧
    (unitAt 1 3 [.eom 0x00]).host.outReady = true ∧ (unitAt 1 3 [.eom 0x00]).host.inPend = .eom 0x00 :: [] ∧
    (unitAt 0 3 []).host.inPend = [] ∧ (stalled (unitAt 0 3 [.data 0x7A])).host.outReady = false := by
  decide

/-- `EncoderAcceptsBytes`: no open run, another byte, the same byte at counts 1, 254 and 255; the case `MIXE` at shift 3. -/
theorem witness_encoderAcceptsBytes :
    (∀ e ∈ [EncRegs.reset, openRun 0x62 1, openRun 0x61 1, openRun 0x61 254, openRun 0x61 255],
      (encAt 2 0 1 e [.data 0x61]).enc.fsN = 0 ∧ (encAt 2 0 1 e [.data 0x61]).enc.endP = false ∧
      (encAt 2 0 1 e [.data 0x61]).host.inPend = .data 0x61 :: []) ∧
    (encAt 4 3 254 (openRun 0x64 254) [.data 0x61]).host.inPend = .data 0x61 :: [] ∧
    subEnc (encAt 4 3 254 (openRun 0x64 254) [.data 0x61]).k 0x61 = 0x64 ∧
    (nextOf (exec .mixe (encAt 4 3 254 (openRun 0x64 254) [.data 0x61]))).map (fun t => t.enc) =
      some (openRun 0x64 255) := by
  decide

/-- `EncoderAcceptsEnd`: with an open run and without. -/
theorem witness_encoderAcceptsEnd :
    (∀ e ∈ [EncRegs.reset, openRun 0x61 255],
      (encAt 2 0 1 e [.eom 0xFF]).enc.fsN = 0 ∧ (encAt 2 0 1 e [.eom 0xFF]).enc.endP = false ∧
      (encAt 2 0 1 e [.eom 0xFF]).host.inPend = .eom 0xFF :: []) := by
  decide

/-- `EncoderEmits`: a frame's value, its count, and the end; the invariant of the last clause. -/
theorem witness_encoderEmits :
    (midEncode 2).host.outReady = true ∧ (midEncode 2).enc.fsN = 2 ∧
    ({ openRun 0x65 1 with fsN := 1, fsV := 0x64, fsC := 2 } : EncRegs).fsN = 1 ∧
    (encAt 2 0 1 { EncRegs.reset with endP := true } []).enc.fsN = 0 ∧
    (encAt 2 0 1 { EncRegs.reset with endP := true } []).enc.endP = true ∧
    (encAt 2 0 1 { EncRegs.reset with endP := true } []).enc.Inv := by
  decide

/-- `DecoderAcceptsBytes`: a value byte, a count of 0, counts of 1 and 255. -/
theorem witness_decoderAcceptsBytes :
    (∀ d ∈ [DecRegs.reset, { DecRegs.reset with ph := true, fv := 0x61 }], ∀ b ∈ ([0, 1, 255] : List Byte),
      (decAt 3 0 1 d [.data b]).dec.rem = 0 ∧ (decAt 3 0 1 d [.data b]).dec.endP = false ∧
      (decAt 3 0 1 d [.data b]).host.inPend = .data b :: []) := by
  decide

/-- `DecoderAcceptsEnd`: on a frame boundary and after a value byte. -/
theorem witness_decoderAcceptsEnd :
    (∀ d ∈ [DecRegs.reset, { DecRegs.reset with ph := true, fv := 0x61 }],
      (decAt 5 0 1 d [.eom 0x02]).dec.rem = 0 ∧ (decAt 5 0 1 d [.eom 0x02]).dec.endP = false ∧
      (decAt 5 0 1 d [.eom 0x02]).host.inPend = .eom 0x02 :: []) := by
  decide

/-- `DecoderEmits`: the last repetition, one before it, and an end with each status; the invariant of the last clause. -/
theorem witness_decoderEmits :
    (midDecode 3).host.outReady = true ∧ (midDecode 3).dec.rem = 1 ∧ (expanding 0x61 255).rem ≠ 0 ∧
    subDec (midDecode 5).k (midDecode 5).dec.rxV = 0x61 ∧
    (∀ st ∈ ([0x00, 0x01] : List Byte), ({ DecRegs.reset with endP := true, endSt := st } : DecRegs).rem = 0 ∧
      ({ DecRegs.reset with endP := true, endSt := st } : DecRegs).endP = true ∧
      ({ DecRegs.reset with endP := true, endSt := st } : DecRegs).Inv) := by
  decide

/-- `SequentialOperationsWait`: a held frame or end with a consumer not ready, and nothing offered. -/
theorem witness_sequentialWait :
    (stalled (midEncode 2)).enc.fsN ≠ 0 ∧ (stalled (midEncode 2)).host.outReady = false ∧
    (unitAt 2 0 []).enc.fsN = 0 ∧ (unitAt 2 0 []).enc.endP = false ∧ (unitAt 2 0 []).host.inPend = [] ∧
    (stalled (midDecode 3)).dec.rem ≠ 0 ∧ (stalled (midDecode 3)).host.outReady = false ∧
    (unitAt 3 0 []).dec.rem = 0 ∧ (unitAt 3 0 []).dec.endP = false ∧ (unitAt 3 0 []).host.inPend = [] := by
  decide

/-- `ReservedOperationsDiscardAndFail`: its four clauses. -/
theorem witness_reserved :
    (unitAt 6 0 [.data 0x61]).host.inPend = .data 0x61 :: [] ∧
    (unitAt 6 0 [.eom 0x00]).host.inPend = .eom 0x00 :: [] ∧ (unitAt 6 0 [.eom 0x00]).host.outReady = true ∧
    (stalled (unitAt 7 0 [.eom 0x00])).host.inPend = .eom 0x00 :: [] ∧
    (stalled (unitAt 7 0 [.eom 0x00])).host.outReady = false ∧ (unitAt 7 0 []).host.inPend = [] := by
  decide

/-- `DataSymbolAcceptedWhenReady` and `EndSymbolAcceptedWhenReady`: after reset every operation accepts what is driven on a
free link, and what waits before it. -/
theorem witness_acceptGuard :
    ∀ op : BitVec 3,
      (unitAt op 3 []).host.inPend ++ offered (.data 0x61) = .data 0x61 :: [] ∧
      (unitAt op 3 []).host.inPend ++ offered (.endSym 0x7F) = .eom 0x7F :: [] ∧
      (unitAt op 3 []).host.inPend ++ offered (.rep 0x61 0x02) = .data 0x61 :: [.data 0x02] ∧
      (unitAt op 3 [.data 0x61]).host.inPend ++ offered (.endSym 0x00) = .data 0x61 :: [.eom 0x00] ∧
      (unitAt op 3 [.eom 0x7F]).host.inPend ++ offered (.rep 0x61 0x02) = .eom 0x7F :: [.data 0x61, .data 0x02] ∧
      (unitAt op 3 []).AcceptGuard (.data 0x61) ∧ (unitAt op 3 []).AcceptGuard (.eom 0x7F) ∧
      (unitAt op 3 [.data 0x61]).AcceptGuard (.data 0x61) ∧ (unitAt op 3 [.eom 0x7F]).AcceptGuard (.eom 0x7F) := by
  simp [unitAt, offered, HostSide.silent, State.reset, State.resetWith, EncRegs.reset, DecRegs.reset, State.AcceptGuard]

/-- `OfferedSymbolsWaitTheirTurn`: the link free and the guard false; an older symbol that cannot be accepted; a frame
driven while repetitions are pending. -/
theorem witness_offeredWait :
    ((stalled (unitAt 0 0 [])).host.inPend ++ offered (.data 0x61)).head? = some (.data 0x61) ∧
    ¬ (stalled (unitAt 0 0 [])).AcceptGuard (.data 0x61) ∧
    ((stalled (unitAt 6 0 [.eom 0x00])).host.inPend ++ offered (.data 0x61)).head? = some (.eom 0x00) ∧
    ¬ (stalled (unitAt 6 0 [.eom 0x00])).AcceptGuard (.eom 0x00) ∧
    ((decAt 3 0 2 (expanding 0x64 1) []).host.inPend ++ offered (.rep 0x65 0x03)).head? = some (.data 0x65) ∧
    ¬ (decAt 3 0 2 (expanding 0x64 1) []).AcceptGuard (.data 0x65) := by
  refine ⟨by decide, fun h => ?_, by decide, fun h => ?_, by decide, fun h => ?_⟩
  · exact absurd (h.1 (.inl rfl)) (by decide)
  · exact absurd (h.2.2.2 (.inl rfl) 0x00 rfl) (by decide)
  · exact absurd (h.2.2.1 (.inl rfl)).1 (by decide)

/-- `RepExpandsFrame`: both operations, with the byte that each emits, and counts 0 and 2. -/
theorem witness_repExpands :
    (∀ op ∈ ([3, 5] : List (BitVec 3)), ∀ n ∈ ([0, 2] : List Byte),
      let s := withTurns (List.replicate (n.toNat + 1) .unit ++ [.host]) (unitAt op 3 [])
      s.op = op ∧ s.dec = DecRegs.reset ∧ s.host.inPend = [] ∧ s.host.outReady = true ∧
      s.host.sched = List.replicate (n.toNat + 1) .unit ++ [.host]) ∧
    subDec (shiftResidue (unitAt 5 3 []).width (unitAt 5 3 []).shift) 0x64 = 0x61 := by
  decide

/-- `RepIsTwoDataSymbols`: the hypotheses of its second clause, at a frame boundary and off one. -/
theorem witness_repIsTwoData :
    (∃ t, exec (.data 0x02) (unitAt 3 0 []) = .next t) ∧
    (∀ d ∈ [DecRegs.reset, { DecRegs.reset with ph := true, fv := 0x64 }],
      (decAt 5 0 1 d []).host.inPend = [] ∧ (decAt 5 0 1 d []).dec.rem = 0 ∧ (decAt 5 0 1 d []).dec.endP = false) ∧
    (∃ t, exec (.data 0x02) (decAt 5 0 1 { DecRegs.reset with ph := true, fv := 0x64 } []) = .next t) :=
  ⟨⟨_, rfl⟩, by decide, _, rfl⟩

/-- `OnlyAccessesTouchConfiguration` and `UnselectedUnitsKeepRegisters`: an instruction that is no access, one that is, and
a symbol on a path without a sequential unit. -/
theorem witness_frames :
    ((∀ a v, Instr.rlec ≠ .cfgWrite a v) ∧ (∀ a, Instr.rlec ≠ .cfgRead a)) ∧
    (∃ a v, Instr.cfgWrite 7 0 = .cfgWrite a v) ∧
    offered (.data 0x61) ≠ [] ∧ (unitAt 0 0 []).op ≠ 2 ∧ (unitAt 0 0 []).op ≠ 4 ∧ (unitAt 0 0 []).op ≠ 3 ∧
      (unitAt 0 0 []).op ≠ 5 :=
  ⟨⟨by simp, by simp⟩, ⟨7, 0, rfl⟩, by decide⟩

/-- `RunsAreTheMaximalRuns`: the runs of V-E3. -/
theorem witness_runs :
    RunsOf [0x61, 0x61, 0x62, 0x62, 0x62, 0x63] [(0x61, 2), (0x62, 3), (0x63, 1)] := by
  decide

/-- `LongRunsSplitAt255`: the smallest and the largest remainder. -/
theorem witness_longRuns :
    (1 ≤ 1 ∧ 1 ≤ 255) ∧ (1 ≤ 255 ∧ 255 ≤ 255) ∧ compress (List.replicate (255 * 0 + 1) 0x61) = [0x61, 0x01] := by
  decide

/-- `CompressOutputShape`: the positions its clauses speak of exist. -/
theorem witness_compressShape :
    (compress [0x61, 0x61, 0x62])[2 * 1 + 1]? = some 0x01 ∧ (compress [0x61, 0x61, 0x62])[2 * 0]? = some 0x61 ∧
    (frames 0x61 256)[2 * 0]? = some 0x61 ∧ (frames 0x61 256)[2 * 0 + 1]? = some 255 ∧
    (frames 0x61 256)[2 * 0 + 2]? = some 0x61 := by
  decide

/-- `PipelineRoundTrip`: two shifts of one residue, and a message that `MIXE` compresses. -/
theorem witness_pipelineRoundTrip :
    shiftResidue 32 3 = shiftResidue 32 0xFFFFFFE9 ∧
    messageResult 4 (shiftResidue 32 3) [0x7A, 0x7A] = .ok [0x63, 0x02] := by
  decide

/-- `EncoderRefinesCompress`: the serializer's counter at its largest legal value. -/
theorem witness_encoderRefines :
    (midEncode 2).enc.fsN ≠ 3 ∧ (midEncode 2).enc.ready = false ∧ (midEncode 2).enc.emit ≠ none := by
  decide

/-- An idle unit under `RLED` whose host still drives the message from its script: a frame, then, while the message is in
flight, a read and a write that is held, then the end and the first byte of the next message. -/
def drivingHost : State :=
  withTurns [.host, .host, .host, .unit, .unit, .host, .unit]
    (withScript [.word (.frame 0x6101), .word (.cfg 0b0010 0), .word (.cfg 0b1001 7), .word (.sym 0x100),
      .word (.sym 0x062)] (unitAt 3 0 []))

/-- `EveryOrderGivesMessageResult`: the whole run of `drivingHost` meets the hypotheses; at its end the message is over, the
write still held, and the next message's byte still to come. -/
theorem witness_everyOrder :
    drivingHost.Idle ∧
    drivingHost.stream = ([0x61, 0x01] : List Byte).map Sym.data ++ .eom 0x00 :: [.data 0x62] ∧
    (∀ m < 7, ∀ u ∈ after m drivingHost, ¬ u.ResetIsNext ∧ drivingHost.NotPastMessage u) ∧
    ((after 7 drivingHost).map fun t => (t.busy, t.host.out, t.host.rdata)) =
      some (false, [.data 0x61, .eom 0x00], [0x0001]) ∧
    ((after 7 drivingHost).map fun t => (t.shift, t.host.cfgPend)) = some (0, [.write 1 7]) :=
  ⟨by decide, by decide, by decide, by decide, by decide⟩

/-- `MessageCompletesWithinBound`: a message offered to an idle unit whose consumer takes everything. -/
theorem witness_messageCompletes :
    let s := unitAt 4 3 [.data 0x61, .eom 0x00]
    s.Idle ∧ s.host.inPend = ([0x61] : List Byte).map Sym.data ++ [.eom 0x00] ∧
    s.host.cfgPend = [] ∧ s.host.script = [] ∧
    s.host.sched = [] ∧ s.host.outReady = true := by
  decide

/-- `FinishedRunStops`: after the last end of a run, and while turns are still given. -/
theorem witness_finishedRun :
    (∀ s ∈ [unitAt 3 7 [], withTurns [.host, .port] (unitAt 6 0 [])], s.Inv ∧ s.RunOver) ∧
    (unitAt 3 7 []).host.sched = [] := by
  decide

end Sys2Proof.Tests
end

section
/-! PROOFS. Whose turn a step is and what it then runs (R6, R7, log 2): one equation per turn, and the move of the unit that an
instruction or a step can make, said once for `exec` and for `step`. -/

namespace Sys2Proof.Machine

/-! ### The turn -/

section Turn
variable {s : State}

/-- The state with its next turn taken off the schedule. -/
def State.popTurn (s : State) : State :=
  { s with host := { s.host with sched := s.host.sched.tail } }

theorem State.nextTurn_eq (s : State) : s.nextTurn = (s.nextTurn.1, s.popTurn) := by
  rcases s with ⟨_, _, _, _, _, _, _, _, _, _, ⟨_, _, _, _, _, _, _ | ⟨_, _⟩⟩⟩ <;> rfl

theorem State.nextTurn_of_head {a : Agent} (h : s.host.sched.head? = some a) : s.nextTurn.1 = a := by
  rcases hs : s.host.sched with _ | ⟨b, rest⟩
  · simp [hs] at h
  · simp only [hs, List.head?_cons, Option.some.injEq] at h
    simp [State.nextTurn, hs, h]

theorem State.nextTurn_of_nil (h : s.host.sched = []) : s.nextTurn.1 = s.defaultTurn := by
  simp [State.nextTurn, h]

theorem step_unit (h : s.nextTurn.1 = .unit) : step s = exec (decodeOp s.op) s.popTurn := by
  rw [step, State.nextTurn_eq, h]
  rfl

theorem step_port (h : s.nextTurn.1 = .port) : step s = .next s.popTurn.serveCfg := by
  rw [step, State.nextTurn_eq, h]

theorem step_host_nil (h : s.nextTurn.1 = .host) (hs : s.host.script = []) : step s = .next s.popTurn := by
  rw [step, State.nextTurn_eq, h]
  simp [State.nextAction, State.popTurn, hs]

theorem step_host_word (h : s.nextTurn.1 = .host) {w : HostWord} {rest : List HostAction}
    (hs : s.host.script = .word w :: rest) :
    step s = exec (decodeHostWord w)
      { s with host := { s.host with script := rest, sched := s.host.sched.tail } } := by
  rw [step, State.nextTurn_eq, h]
  simp [State.nextAction, State.popTurn, hs]

theorem step_host_ready (h : s.nextTurn.1 = .host) {b : Bool} {rest : List HostAction}
    (hs : s.host.script = .ready b :: rest) :
    step s = .next (State.setReady
      { s with host := { s.host with script := rest, sched := s.host.sched.tail } } b) := by
  rw [step, State.nextTurn_eq, h]
  simp [State.nextAction, State.popTurn, hs]

end Turn

/-! ### The unit's move -/

/-- What the unit may do in one step on a path: wait, accept the oldest symbol offered, or emit the symbol that waits (R157
to R160, R193). -/
inductive State.UnitMove (s : State) (p : Path) : State → Prop where
  | wait : State.UnitMove s p s
  | accept {x : Sym} {rest : List Sym} (hin : s.host.inPend = x :: rest) (hr : s.inReady p x = true) :
      State.UnitMove s p (State.acceptOn { s with host := { s.host with inPend := rest } } p x)
  | emit {t : State} (he : s.emitOn p = some t) (hr : s.host.outReady = true) : State.UnitMove s p t

theorem State.unitStep_move (s : State) (p : Path) : s.UnitMove p (s.unitStep p) := by
  rcases s.unitStep_cases p with ⟨u, he, hr, hu⟩ | ⟨x, rest, -, hin, hr, hu⟩ | hu <;> rw [hu]
  · exact .emit he hr
  · exact .accept hin hr
  · exact .wait

theorem State.transferIn_move (s : State) (p : Path) : s.UnitMove p (s.transferIn p) := by
  rcases s.transferIn_cases p with hu | ⟨x, rest, hin, hr, hu⟩ <;> rw [hu]
  · exact .wait
  · exact .accept hin hr

/-- An instruction that is no access offers its symbols, and the unit moves on the instruction's path; an access is offered,
and the port serves the oldest one. -/
theorem exec_cases {i : Instr} {s t : State} (h : exec i s = .next t) :
    (accesses i = [] ∧ (s.offerIn (offered i)).UnitMove (pathUnder i s.op) t) ∨
    (∃ c, accesses i = [c] ∧ offered i = [] ∧ t = (s.offerCfg c).serveCfg) := by
  have noOffer : s.offerIn [] = s := by simp [State.offerIn]
  have op : ∀ p, (s.offerIn []).UnitMove p (s.unitStep p) := fun p => noOffer.symm ▸ s.unitStep_move p
  cases i with
  | cfgWrite a v => exact .inr ⟨_, rfl, rfl, (Host.Outcome.next.inj h).symm⟩
  | cfgRead a => exact .inr ⟨_, rfl, rfl, (Host.Outcome.next.inj h).symm⟩
  | data | endSym | rep => cases h; exact .inl ⟨rfl, State.transferIn_move _ _⟩
  | cenc | cdec | rlec | rled | mixe | mixd | rsv6 | rsv7 => cases h; exact .inl ⟨rfl, op _⟩

/-! ### The unit with its registers at reset, and the parameter `W` -/

/-- With both sequential units at their reset values no symbol waits for `out`. -/
theorem State.emitOn_of_reset {s : State} (henc : s.enc = EncRegs.reset) (hdec : s.dec = DecRegs.reset) (p : Path) :
    s.emitOn p = none := by
  rcases he : s.emitOn p with _ | u
  · rfl
  · rcases State.emitOn_cases he with ⟨-, _, _, -, h, -⟩ | ⟨-, _, _, -, h, -⟩
    · rw [henc] at h; cases h
    · rw [hdec] at h; cases h

theorem State.quiescent_of_reset {s : State} (henc : s.enc = EncRegs.reset) (hdec : s.dec = DecRegs.reset) :
    s.Quiescent := by
  refine ⟨?_, ?_, ?_, ?_⟩ <;> simp [henc, hdec, EncRegs.reset, DecRegs.reset]

theorem State.serveCfg_width (s : State) : s.serveCfg.width = s.width := by
  rcases s.serveCfg_cases with h | ⟨c, rest, -, -, h⟩ <;> rw [h]
  rcases State.perform_cases { s with host := { s.host with cfgPend := rest } } c with ⟨_, h⟩ | ⟨_, h⟩ | ⟨_, h⟩ <;> rw [h]

/-- No step changes the parameter `W` (R5, log 1). -/
theorem step_width {s t : State} (h : step s = .next t) : t.width = s.width :=
  step_keeps (P := fun u => u.width = s.width)
    (hOfferIn := fun _ _ hu => hu) (hOfferCfg := fun _ _ hu => hu)
    (hTransfer := fun u hu => (u.transferIn_frame _).1.trans hu)
    (hUnit := fun u hu => (u.unitStep_frame _).1.trans hu)
    (hServe := fun u hu => u.serveCfg_width.trans hu)
    (hReset := fun _ hu => hu) (hScript := fun _ _ hu => hu) (hSched := fun _ _ hu => hu) (hReady := fun _ _ hu => hu)
    rfl h

/-- Every configuration register reads as a word of `W` bits (R29, R172): the fields that are not words of `W` bits by the
invariant are at most 16 bits. -/
theorem State.cfgValue_lt {s : State} (h : s.Fits) (a : CfgIndex) : s.cfgValue a < 2 ^ s.width := by
  obtain ⟨hw, hshift, herr, -⟩ := h
  have h16 : 2 ^ 16 ≤ 2 ^ s.width := Nat.pow_le_pow_right (by omega) hw
  have small : ∀ {m n : Nat}, n < m → m ≤ 2 ^ 16 → n < 2 ^ s.width := fun hn hm => (hn.trans_le hm).trans_le h16
  have hstatus : s.statusWord < 2 ^ 16 := (s.lastStatus ++ 0#6 ++ BitVec.ofBool s.done ++ BitVec.ofBool s.busy).isLt
  unfold State.cfgValue
  split
  · exact small s.op.isLt (by decide)
  · exact hshift
  · exact small hstatus le_rfl
  · exact herr
  · exact small s.k.isLt (by decide)
  · exact small Nat.zero_lt_one (by decide)

end Sys2Proof.Machine

open Sys2Proof Sys2Proof.Machine

/-- Settles O6: the host's turn, given by the schedule or taken by the default order because neither the port nor the unit
can move. -/
theorem stepRunsHostWord : Obligations.StepRunsHostWord := by
  intro s w rest hs hturn
  refine step_host_word ?_ hs
  rcases hturn with hgiven | ⟨hnil, hport, hunit⟩
  · exact State.nextTurn_of_head hgiven
  · rw [State.nextTurn_of_nil hnil]
    simp [State.defaultTurn, hport, hunit, hs]

/-- Settles O14: every register is 0, so each clause of the invariant is about reset values; that a word of 0 fits needs
`16 ≤ w` alone. -/
theorem invariantHoldsAtReset : Obligations.InvariantHoldsAtReset := by
  intro w h hw
  have hpos : 0 < 2 ^ w := Nat.two_pow_pos w
  refine ⟨⟨⟨hw, hpos, hpos, hpos⟩, EncRegs.reset_inv, DecRegs.reset_inv, fun _ => rfl, fun _ => rfl,
    fun _ => ⟨rfl, rfl, rfl⟩, .inl rfl, fun _ => rfl⟩, ?_, rfl, rfl, rfl, rfl⟩
  rintro (h3 | h5)
  · exact absurd h3 (by decide : (0 : BitVec 3) ≠ 3)
  · exact absurd h5 (by decide : (0 : BitVec 3) ≠ 5)

/-- Settles O27: the quotient is the floor quotient `i / 26`; the examples are computed. -/
theorem shiftResidueIsFloorRemainder : Obligations.ShiftResidueIsFloorRemainder := by
  refine ⟨fun i => ⟨i / 26, ?_⟩, by decide⟩
  change i = 26 * (i / 26) + ((i % 26).toNat : Int)
  omega

/-- Settles O59: without a message in flight both units are at their reset values, so nothing waits; then the default order
gives the turn to the unit, which has nothing to emit and nothing to accept. -/
theorem finishedRunStops : Obligations.FinishedRunStops := by
  rintro s ⟨-, -, -, -, -, hidle, -⟩ ⟨hscript, hin, hcfg, hbusy⟩
  obtain ⟨hoff, henc, hdec⟩ := hidle hbusy
  refine ⟨State.quiescent_of_reset henc hdec, ⟨hbusy, hoff, henc, hdec⟩, fun hsched => ?_⟩
  have hemit : ∀ p, s.emitOn p = none := State.emitOn_of_reset henc hdec
  have hturn : s.nextTurn.1 = .unit := by
    rw [State.nextTurn_of_nil hsched]
    simp [State.defaultTurn, State.portEnabled, State.unitEnabled, hcfg, hemit, hin, hscript]
  have hpop : s.popTurn = s := by
    rw [State.popTurn, hsched, List.tail_nil, ← hsched]
  rw [step_unit hturn, hpop, exec_decodeOp]
  simp [State.unitStep, hemit, State.transferIn_nil hin]

/-- Settles O60, by the induction over a step for `W`, and the width of each register for the reads. -/
theorem widthIsFixedAndReadsFit : Obligations.WidthIsFixedAndReadsFit :=
  ⟨fun _ _ => step_width, fun _ a hinv => State.cfgValue_lt hinv.1 a⟩
end

section
/-! PROOFS. What one move takes from `in` and puts on `out` (R53, R57, R58). -/

namespace Sys2Proof.Machine

section Move
variable {s : State}

/-- An accepted symbol reaches `out` in the same step only on a path without a sequential unit, and then it is what `out`
offered, to a consumer that was ready. -/
theorem State.acceptOn_out {p : Path} {x : Sym} {rest : List Sym} (hin : s.host.inPend = x :: rest)
    (hr : s.inReady p x = true) :
    ∃ new : List Sym, (State.acceptOn { s with host := { s.host with inPend := rest } } p x).host =
        { s.host with inPend := rest, out := s.host.out ++ new } ∧
      new.length ≤ 1 ∧ ∀ y ∈ new, s.host.outReady = true ∧ s.outSym p = some y := by
  have pass : ∀ y, s.host.outReady = true → s.outSym p = some y →
      ∀ z ∈ [y], s.host.outReady = true ∧ s.outSym p = some z := by
    rintro y ho hy z hz
    rw [List.mem_singleton.mp hz]
    exact ⟨ho, hy⟩
  cases p with
  | cipher dir =>
    refine ⟨[scu dir s.k (stripStatus x)], ?_, le_rfl, pass _ hr (by simp [State.outSym, hin])⟩
    cases x <;> rfl
  | enc on => refine ⟨[], ?_, by simp, by simp⟩; cases x <;> simp [State.acceptOn]
  | dec on => refine ⟨[], ?_, by simp, by simp⟩; cases x <;> simp [State.acceptOn]
  | sink =>
    cases x with
    | data b => exact ⟨[], by simp [State.acceptOn], by simp, by simp⟩
    | eom st => exact ⟨[.eom statusIllegalOp], rfl, le_rfl, pass _ hr (by simp [State.outSym, hin])⟩

/-- An emitted symbol is the one that `out` offered. -/
theorem State.emitOn_out {p : Path} {t : State} (he : s.emitOn p = some t) :
    ∃ x, s.outSym p = some x ∧ t.host = { s.host with out := s.host.out ++ [x] } := by
  rcases State.emitOn_cases he with ⟨on, x, e, rfl, hx, rfl⟩ | ⟨on, x, d, rfl, hx, rfl⟩
  · exact ⟨x, by simp [State.outSym, hx], (State.deliver_frame _ x).2.2.2.2.2⟩
  · exact ⟨_, by simp [State.outSym, hx], (State.deliver_frame _ _).2.2.2.2.2⟩

/-- The port's turn reads at most the oldest access, and changes nothing but `OP`, `SHIFT` and what the port holds. -/
theorem State.serveCfg_effect (s : State) :
    s.serveCfg = { s with
      op := s.serveCfg.op
      shift := s.serveCfg.shift
      host := { s.host with cfgPend := s.serveCfg.host.cfgPend, rdata := s.serveCfg.host.rdata } } ∧
    (s.serveCfg.host.rdata = s.host.rdata ∨
      ∃ a, s.host.cfgPend.head? = some (.read a) ∧ s.serveCfg.host.rdata = s.host.rdata ++ [s.cfgValue a]) := by
  rcases s.serveCfg_cases with h | ⟨c, rest, hc, -, h⟩ <;> rw [h]
  · exact ⟨rfl, .inl rfl⟩
  · cases c with
    | read a => exact ⟨rfl, .inr ⟨a, by simp [hc], rfl⟩⟩
    | write a v =>
      simp only [State.perform, State.cfgStore_eq]
      split_ifs <;> exact ⟨rfl, .inl rfl⟩

end Move

end Sys2Proof.Machine

open Sys2Proof Sys2Proof.Machine

/-- Settles O24, by the three moves of the unit: a wait takes and emits nothing, an accept takes the oldest symbol, an emit
step takes none; an access moves no symbol. -/
theorem symbolsAreNeitherLostNorReordered : Obligations.SymbolsAreNeitherLostNorReordered := by
  rintro i s u t p rfl rfl h
  rcases exec_cases h with ⟨-, hmove⟩ | ⟨c, hc, hoff, rfl⟩
  · cases hmove with
    | wait => exact ⟨⟨[], [], by simp [State.SameRecord]⟩, .inl rfl⟩
    | accept hin hr =>
      obtain ⟨new, hhost, hlen, hnew⟩ := State.acceptOn_out hin hr
      simp only [hhost]
      exact ⟨⟨[_], new, hin, rfl, le_rfl, hlen, by simp [hr],
        fun x hx => ⟨(hnew x hx).1, (hnew x hx).2, fun h => nomatch h⟩, fun h => nomatch h⟩, .inl rfl⟩
    | emit he hr =>
      obtain ⟨x, hx, hhost⟩ := State.emitOn_out he
      simp only [hhost]
      exact ⟨⟨[], [x], rfl, rfl, by simp, le_rfl, by simp,
        fun y hy => (List.mem_singleton.mp hy) ▸ ⟨hr, hx, fun _ => he⟩, fun _ h => nomatch h⟩, .inl rfl⟩
  · obtain ⟨heffect, hread⟩ := (s.offerCfg c).serveCfg_effect
    rw [hoff, hc]
    refine ⟨⟨[], [], ?_⟩, ?_⟩
    · rw [heffect]
      simp [State.SameRecord]
    · exact hread
end

section
/-! PROOFS. Each sequential unit on its own refines its reference function (R124, R143): what it still owes is what it holds
and what the rest of its input gives, no accept changes that, and an emit step pays its first symbol. -/

namespace Sys2Proof.Machine

/-! ### `compress`, one run at a time (R111, R112) -/

section Runs
variable {l : List Byte} {v : Byte}

theorem runs_cons_head (b : Byte) (l : List Byte) : ∃ n more, runs (b :: l) = (b, n + 1) :: more := by
  rw [runs]
  rcases runs l with _ | ⟨⟨c, n⟩, more⟩
  · exact ⟨0, [], rfl⟩
  · by_cases hb : b = c
    · exact ⟨n, more, by simp [hb]⟩
    · exact ⟨0, (c, n) :: more, by simp [hb]⟩

theorem runs_cons_same {n : Nat} {more : List (Byte × Nat)} (h : runs l = (v, n) :: more) :
    runs (v :: l) = (v, n + 1) :: more := by
  simp [runs, h]

theorem runs_cons_ne (h : l.head? ≠ some v) : runs (v :: l) = (v, 1) :: runs l := by
  rcases l with _ | ⟨c, rest⟩
  · rfl
  · obtain ⟨n, more, hr⟩ := runs_cons_head c rest
    have hv : v ≠ c := fun hc => h (by simp [hc])
    simp only [runs] at hr ⊢
    simp [hr, hv]

theorem runs_replicate_append (h : l.head? ≠ some v) (n : Nat) :
    runs (List.replicate (n + 1) v ++ l) = (v, n + 1) :: runs l := by
  induction n with
  | zero => exact runs_cons_ne h
  | succ n ih => exact runs_cons_same ih

theorem runs_replicate_append_same {m : Nat} {more : List (Byte × Nat)} (h : runs l = (v, m) :: more) (n : Nat) :
    runs (List.replicate n v ++ l) = (v, m + n) :: more := by
  induction n with
  | zero => exact h
  | succ n ih => exact runs_cons_same ih

theorem frames_short {n : Nat} (h : n ≤ 255) : frames v n = [v, BitVec.ofNat 8 n] := by
  have hq : (n - 1) / 255 = 0 := by omega
  simp [frames, hq]

/-- A full frame in front of a run of at least one byte (R112). -/
theorem frames_add_255 (v : Byte) (n : Nat) : frames v (n + 1 + 255) = v :: 255 :: frames v (n + 1) := by
  have hq : (n + 1 + 255 - 1) / 255 = n / 255 + 1 := by omega
  have hr : n + 1 + 255 - 255 * (n / 255 + 1) = n + 1 - 255 * (n / 255) := by omega
  simp only [frames, hq, hr, Nat.add_sub_cancel, List.replicate_succ, List.flatten_cons]
  rfl

/-- A short run that ends where the rest begins is one frame. -/
theorem compress_replicate_append (h : l.head? ≠ some v) {n : Nat} (h1 : n ≠ 0) (h255 : n ≤ 255) :
    compress (List.replicate n v ++ l) = v :: BitVec.ofNat 8 n :: compress l := by
  obtain ⟨m, rfl⟩ := Nat.exists_eq_succ_of_ne_zero h1
  rw [compress, runs_replicate_append h, List.flatMap_cons, frames_short h255]
  rfl

/-- The same with the run's length in the byte that `CNT` is (R33). -/
theorem compress_replicate_byte_append (h : l.head? ≠ some v) {n : Byte} (hn : n ≠ 0) :
    compress (List.replicate n.toNat v ++ l) = v :: n :: compress l := by
  have hpos : n.toNat ≠ 0 := fun h0 => hn (BitVec.eq_of_toNat_eq h0)
  rw [compress_replicate_append h hpos (Nat.le_of_lt_succ n.isLt), BitVec.ofNat_toNat, BitVec.setWidth_eq]

/-- The split (R117): 255 bytes of a run that goes on are one frame. -/
theorem compress_replicate_255_append (v : Byte) (l : List Byte) :
    compress (List.replicate 255 v ++ v :: l) = v :: 255 :: compress (v :: l) := by
  obtain ⟨n, more, hr⟩ := runs_cons_head v l
  rw [compress, runs_replicate_append_same hr, compress, hr, List.flatMap_cons, List.flatMap_cons, frames_add_255]
  rfl

end Runs

/-! ### The encoder -/

section Encoder

/-- `RLE-E` with a run open and nothing waiting for `out`. -/
def EncRegs.running (v n : Byte) : EncRegs :=
  { EncRegs.reset with haveRun := true, cur := v, cnt := n }

/-- What `RLE-E` still has to emit for the rest of its input: what it holds, then what it makes of that input. -/
def EncRegs.owes (e : EncRegs) (l : List Sym) : List Sym :=
  (e.drain 3).1 ++ ((e.drain 3).2.feed l).1

variable {e : EncRegs}

theorem EncRegs.drain_of_emit_none (h : e.emit = none) (n : Nat) : e.drain n = ([], e) := by
  cases n <;> simp [EncRegs.drain, h]

theorem EncRegs.feed_cons_eq {t : Sym} {l out : List Sym} {e' : EncRegs} (h : (e.accept t).drain 3 = (out, e')) :
    e.feed (t :: l) = (out ++ (e'.feed l).1, (e'.feed l).2) := by
  simp [EncRegs.feed, h]

theorem EncRegs.running_accept_counts (v : Byte) {n : Byte} (h : n ≠ 255) :
    (EncRegs.running v n).accept (.data v) = EncRegs.running v (n + 1) :=
  EncRegs.accept_counts (e := EncRegs.running v n) rfl h

theorem EncRegs.running_accept_splits (v : Byte) :
    (EncRegs.running v 255).accept (.data v) = { EncRegs.running v 1 with fsV := v, fsC := 255, fsN := 2 } :=
  EncRegs.accept_splits (e := EncRegs.running v 255) rfl rfl

theorem EncRegs.running_accept_closes {v b : Byte} (n : Byte) (h : b ≠ v) :
    (EncRegs.running v n).accept (.data b) = { EncRegs.running b 1 with fsV := v, fsC := n, fsN := 2 } :=
  EncRegs.accept_closes (e := EncRegs.running v n) rfl h

/-- A frame that was handed over leaves before the new run's next symbol (R120, R121). -/
theorem EncRegs.drain_frame (v n c m : Byte) :
    ({ EncRegs.running c m with fsV := v, fsC := n, fsN := 2 } : EncRegs).drain 3 =
      ([.data v, .data n], EncRegs.running c m) := by
  simp [EncRegs.drain, EncRegs.emit, EncRegs.running, EncRegs.reset]

/-- R124, with a run of `n` bytes `v` open. -/
theorem EncRegs.feed_running (l : List Byte) (st : Byte) {v n : Byte} (hn : n ≠ 0) :
    (EncRegs.running v n).feed (l.map .data ++ [.eom st]) =
      ((compress (List.replicate n.toNat v ++ l)).map .data ++ [.eom st], EncRegs.reset) := by
  induction l generalizing v n with
  | nil =>
    rw [compress_replicate_byte_append (by simp) hn]
    have hdrain : ((EncRegs.running v n).accept (.eom st)).drain 3 =
        ([.data v, .data n, .eom st], EncRegs.reset) := by
      rw [EncRegs.accept_end_of_run rfl]
      simp [EncRegs.drain, EncRegs.emit, EncRegs.running, EncRegs.reset]
    exact EncRegs.feed_cons_eq hdrain
  | cons b l ih =>
    have ih1 := ih (v := b) (n := 1) (by decide)
    rw [List.map_cons, List.cons_append]
    by_cases hb : b = v
    · subst hb
      by_cases h255 : n = 255
      · subst h255
        have hdrain : ((EncRegs.running b 255).accept (.data b)).drain 3 =
            ([.data b, .data 255], EncRegs.running b 1) := by
          rw [EncRegs.running_accept_splits, EncRegs.drain_frame]
        have hsplit : compress (List.replicate (255 : Byte).toNat b ++ b :: l) =
            b :: 255 :: compress (List.replicate (1 : Byte).toNat b ++ l) := compress_replicate_255_append b l
        rw [EncRegs.feed_cons_eq hdrain, ih1, hsplit]
        rfl
      · have hdrain : ((EncRegs.running b n).accept (.data b)).drain 3 = ([], EncRegs.running b (n + 1)) := by
          rw [EncRegs.running_accept_counts b h255]
          exact EncRegs.drain_of_emit_none (EncRegs.emit_of_ready rfl) 3
        have hsucc : (n + 1).toNat = n.toNat + 1 := by bv_omega
        have hlist : List.replicate (n + 1).toNat b ++ l = List.replicate n.toNat b ++ b :: l := by
          rw [hsucc, List.replicate_succ', List.append_assoc, List.singleton_append]
        rw [EncRegs.feed_cons_eq hdrain, ih (by bv_omega), hlist]
        rfl
    · have hdrain : ((EncRegs.running v n).accept (.data b)).drain 3 =
          ([.data v, .data n], EncRegs.running b 1) := by
        rw [EncRegs.running_accept_closes n hb, EncRegs.drain_frame]
      rw [EncRegs.feed_cons_eq hdrain, ih1, compress_replicate_byte_append (by simpa using hb) hn]
      rfl

/-- R124: from reset, `RLE-E` turns a message into exactly `compress` and its end, and is at its reset values again. -/
theorem EncRegs.feed_reset (l : List Byte) (st : Byte) :
    EncRegs.reset.feed (l.map .data ++ [.eom st]) = ((compress l).map .data ++ [.eom st], EncRegs.reset) := by
  cases l with
  | nil =>
    have hdrain : (EncRegs.reset.accept (.eom st)).drain 3 = ([.eom st], EncRegs.reset) := by
      simp [EncRegs.accept, EncRegs.drain, EncRegs.emit, EncRegs.reset]
    exact EncRegs.feed_cons_eq hdrain
  | cons b l =>
    have hdrain : (EncRegs.reset.accept (.data b)).drain 3 = ([], EncRegs.running b 1) :=
      EncRegs.drain_of_emit_none (EncRegs.emit_of_ready rfl) 3
    rw [List.map_cons, List.cons_append, EncRegs.feed_cons_eq hdrain, EncRegs.feed_running l st (by decide)]
    rfl

theorem EncRegs.owes_accept (h : e.ready = true) (t : Sym) (l : List Sym) : (e.accept t).owes l = e.owes (t :: l) := by
  rw [EncRegs.owes, EncRegs.owes, EncRegs.drain_of_emit_none (EncRegs.emit_of_ready h)]
  rfl

theorem EncRegs.owes_emit {t : Sym} {e' : EncRegs} (h : e.emit = some (t, e')) (l : List Sym) :
    e.owes l = t :: e'.owes l := by
  have hdrain : e.drain 3 = (t :: (e'.drain 2).1, (e'.drain 2).2) := by rw [EncRegs.drain, h]
  have hstable : e'.drain 3 = e'.drain 2 := by
    rcases hp : e.endP with _ | _ <;> rcases EncRegs.emit_cases h with ⟨hn, -, rfl⟩ | ⟨hn, -, rfl⟩ | ⟨hn, -, -, rfl⟩ <;>
      simp [EncRegs.drain, EncRegs.emit, hp, hn]
  rw [EncRegs.owes, hdrain, EncRegs.owes, hstable]
  rfl

end Encoder

/-! ### The decoder -/

section Decoder

/-- What `RLE-D` still has to emit for the rest of its input. -/
def DecRegs.owes (d : DecRegs) (l : List Sym) : List Sym :=
  (d.drain 256).1 ++ ((d.drain 256).2.feed l).1

variable {d : DecRegs}

theorem DecRegs.drain_of_emit_none (h : d.emit = none) (n : Nat) : d.drain n = ([], d) := by
  cases n <;> simp [DecRegs.drain, h]

theorem DecRegs.feed_cons_eq {t : Sym} {l out : List Sym} {d' : DecRegs} (h : (d.accept t).drain 256 = (out, d')) :
    d.feed (t :: l) = (out ++ (d'.feed l).1, (d'.feed l).2) := by
  simp [DecRegs.feed, h]

/-- With room for all that `RLE-D` holds, more room changes nothing. -/
theorem DecRegs.drain_succ {n : Nat} (h : d.rem.toNat < n) : d.drain (n + 1) = d.drain n := by
  induction n generalizing d with
  | zero => exact absurd h (Nat.not_lt_zero _)
  | succ n ih =>
    rcases hd : d.emit with _ | ⟨t, d'⟩
    · rw [DecRegs.drain_of_emit_none hd, DecRegs.drain_of_emit_none hd]
    · have hstable : d'.drain (n + 1) = d'.drain n := by
        rcases DecRegs.emit_cases hd with ⟨h0, -, rfl⟩ | ⟨h0, -, -, rfl⟩
        · exact ih (d := { d with rem := d.rem - 1, rxV := if d.rem = 1 then 0 else d.rxV })
            (by change (d.rem - 1).toNat < n; bv_omega)
        · have hnone := DecRegs.emit_of_ready (d := { d with endP := false, endSt := 0 })
            (DecRegs.ready_iff.mpr ⟨h0, rfl⟩)
          rw [DecRegs.drain_of_emit_none hnone, DecRegs.drain_of_emit_none hnone]
      rw [DecRegs.drain, hd, DecRegs.drain, hd]
      simp only [hstable]

/-- `RLE-D` at a frame boundary with `n` repetitions of `v` to emit. -/
def DecRegs.repeating (v n : Byte) : DecRegs :=
  { DecRegs.reset with rxV := if n = 0 then 0 else v, rem := n }

/-- R136, R137: a count byte loads the expander, and a count of 0 loads nothing. -/
theorem DecRegs.accept_count_eq_repeating (v n : Byte) :
    ({ DecRegs.reset with fv := v, ph := true } : DecRegs).accept (.data n) = DecRegs.repeating v n := by
  by_cases hn : n = 0
  · subst hn; rfl
  · rw [DecRegs.accept_count rfl hn, DecRegs.repeating, if_neg hn]
    rfl

theorem DecRegs.repeating_emit (v : Byte) {n : Byte} (hn : n ≠ 0) :
    (DecRegs.repeating v n).emit = some (.data v, DecRegs.repeating v (n - 1)) := by
  have hz : n - 1 = 0 ↔ n = 1 := by constructor <;> intro h <;> bv_omega
  rw [DecRegs.emit_repetition hn]
  simp only [DecRegs.repeating, hz, if_neg hn]

/-- R140, to the last repetition. -/
theorem DecRegs.drain_repeating (v : Byte) {n : Byte} {k : Nat} (h : n.toNat < k) :
    (DecRegs.repeating v n).drain k = (List.replicate n.toNat (.data v), DecRegs.reset) := by
  induction k generalizing n with
  | zero => exact absurd h (Nat.not_lt_zero _)
  | succ k ih =>
    by_cases hn : n = 0
    · subst hn; rfl
    · have hsucc : n.toNat = (n - 1).toNat + 1 := by bv_omega
      rw [DecRegs.drain, DecRegs.repeating_emit v hn]
      dsimp only
      rw [ih (by omega), hsucc, List.replicate_succ]

/-- R143: from reset, `RLE-D` turns a message into the expansion of its complete frames and an end that says whether a byte
was left over, and is at its reset values again. -/
theorem DecRegs.feed_reset : ∀ l : List Byte,
    DecRegs.reset.feed (l.map .data ++ [.eom 0]) =
      ((expandFrames l).map .data ++ [.eom (streamStatus l.length)], DecRegs.reset)
  | [] => rfl
  | [_] => rfl
  | v :: n :: rest => by
    have hvalue : (DecRegs.reset.accept (.data v)).drain 256 =
        ([], { DecRegs.reset with fv := v, ph := true }) :=
      DecRegs.drain_of_emit_none (DecRegs.emit_of_ready rfl) 256
    have hcount : (({ DecRegs.reset with fv := v, ph := true } : DecRegs).accept (.data n)).drain 256 =
        (List.replicate n.toNat (.data v), DecRegs.reset) := by
      rw [DecRegs.accept_count_eq_repeating, DecRegs.drain_repeating v n.isLt]
    have hlen : streamStatus (rest.length + 1 + 1) = streamStatus rest.length := by
      simp only [streamStatus, Nat.add_assoc, Nat.add_mod_right]
    rw [List.map_cons, List.map_cons, List.cons_append, List.cons_append, DecRegs.feed_cons_eq hvalue,
      DecRegs.feed_cons_eq hcount, DecRegs.feed_reset rest]
    simp [expandFrames, hlen]

theorem DecRegs.owes_accept (h : d.ready = true) (t : Sym) (l : List Sym) : (d.accept t).owes l = d.owes (t :: l) := by
  rw [DecRegs.owes, DecRegs.owes, DecRegs.drain_of_emit_none (DecRegs.emit_of_ready h)]
  rfl

theorem DecRegs.owes_emit {t : Sym} {d' : DecRegs} (h : d.emit = some (t, d')) (l : List Sym) :
    d.owes l = t :: d'.owes l := by
  have hdrain : d.drain 256 = (t :: (d'.drain 255).1, (d'.drain 255).2) := by rw [DecRegs.drain, h]
  have hrem : d'.rem.toNat < 255 := by
    rcases DecRegs.emit_cases h with ⟨h0, -, rfl⟩ | ⟨h0, -, -, rfl⟩
    · change (d.rem - 1).toNat < 255
      bv_omega
    · simp [h0]
  rw [DecRegs.owes, hdrain, DecRegs.owes, DecRegs.drain_succ hrem]
  rfl

end Decoder
end Sys2Proof.Machine
end

section
/-! PROOFS. What a step is to a message: the host moves, then the unit or the port does (R6, R7); and what the unit owes its
consumer for the rest of a message, which every move keeps or pays (R162). -/

namespace Sys2Proof.Machine

/-! ### A step as a move of the host and a move of the unit or the port -/

/-- The host's part of a step: a turn is taken, an action of the script is begun. The unit's registers, the symbols still to
be accepted and those received stay as they were. -/
inductive State.HostMove (s : State) : State → Prop where
  | move (h : HostSide) (hstream : State.stream { s with host := h } = s.stream) (hout : h.out = s.host.out) :
      State.HostMove s { s with host := h }

theorem pathUnder_hostWord (w : HostWord) (op : BitVec 3) : pathUnder (decodeHostWord w) op = pathOf op := by
  rcases decodeHostWord_cases w with ⟨_, h⟩ | ⟨_, h⟩ | ⟨_, _, h⟩ | ⟨_, _, h⟩ | ⟨_, h⟩ <;> rw [h] <;> rfl

/-- Everything a step can be: reset, or a move of the host and then of the unit or the port. -/
theorem step_cases {s t : State} (h : step s = .next t) :
    s.ResetIsNext ∨ ∃ u, s.HostMove u ∧ (u.UnitMove (pathOf u.op) t ∨ t = u.serveCfg) := by
  have hpop : s.HostMove s.popTurn := .move _ rfl rfl
  rcases hturn : s.nextTurn.1 with _ | _ | _
  case unit =>
    rw [step_unit hturn, exec_decodeOp] at h
    cases h
    exact .inr ⟨_, hpop, .inl (State.unitStep_move _ _)⟩
  case port =>
    rw [step_port hturn] at h
    cases h
    exact .inr ⟨_, hpop, .inr rfl⟩
  case host =>
    rcases hs : s.host.script with _ | ⟨_ | _ | b, rest⟩
    case nil =>
      rw [step_host_nil hturn hs] at h
      cases h
      exact .inr ⟨_, hpop, .inl .wait⟩
    case cons.word w =>
      rw [step_host_word hturn hs] at h
      rcases exec_cases h with ⟨-, hmove⟩ | ⟨c, -, hoff, rfl⟩
      · rw [pathUnder_hostWord] at hmove
        refine .inr ⟨_, ?_, .inl hmove⟩
        exact .move _ (by simp [State.stream, hs, HostAction.symbols]) rfl
      · refine .inr ⟨_, ?_, .inr rfl⟩
        exact .move _ (by simp [State.stream, hs, HostAction.symbols, hoff]) rfl
    case cons.reset => exact .inl ⟨hturn, by rw [hs]; rfl⟩
    case cons.ready =>
      rw [step_host_ready hturn hs] at h
      cases h
      refine .inr ⟨_, ?_, .inl .wait⟩
      exact .move _ (by simp [State.stream, hs, HostAction.symbols]) rfl

/-! ### What the unit owes -/

/-- What a reserved operation emits for a symbol (R160). -/
def sinkOut : Sym → Option Sym
  | .data _ => none
  | .eom _ => some (.eom statusIllegalOp)

/-- What the unit on a path still has to emit for the rest of the message's symbols: what it holds, then what it makes of
those. -/
def State.owed (s : State) (p : Path) (todo : List Sym) : List Sym :=
  match p with
  | .cipher dir => todo.map fun x => scu dir s.k (stripStatus x)
  | .enc on => s.enc.owes (todo.map fun x => scuIf on .encode s.k (stripStatus x))
  | .dec on => (s.dec.owes (todo.map stripStatus)).map (scuIf on .decode s.k)
  | .sink => todo.filterMap sinkOut

/-- From `s` to `t` the consumer receives exactly what the unit owes less. -/
def State.Pays (s t : State) (p : Path) (todo todo' : List Sym) : Prop :=
  ∃ new, t.host.out = s.host.out ++ new ∧ s.owed p todo = new ++ t.owed p todo'

theorem State.Pays.trans {s u t : State} {p : Path} {l m r : List Sym} (h1 : s.Pays u p l m) (h2 : u.Pays t p m r) :
    s.Pays t p l r := by
  obtain ⟨a, ha, ha'⟩ := h1
  obtain ⟨b, hb, hb'⟩ := h2
  exact ⟨a ++ b, by rw [hb, ha, List.append_assoc], by rw [ha', hb', List.append_assoc]⟩

section Owed
variable {s : State} {p : Path}

/-- An accepted symbol moves from the rest of the message to what the unit holds, or to the output. -/
theorem State.acceptOn_pays {x : Sym} (hr : s.inReady p x = true) (todo : List Sym) :
    s.Pays (s.acceptOn p x) p (x :: todo) todo := by
  cases p with
  | cipher dir => cases x <;> exact ⟨[_], rfl, rfl⟩
  | enc on =>
    refine ⟨[], by cases x <;> simp [State.acceptOn], ?_⟩
    cases x <;> exact (EncRegs.owes_accept hr _ _).symm
  | dec on =>
    refine ⟨[], by cases x <;> simp [State.acceptOn], ?_⟩
    cases x <;> exact congrArg (List.map _) (DecRegs.owes_accept hr _ _).symm
  | sink =>
    cases x with
    | data b => exact ⟨[], by simp [State.acceptOn], rfl⟩
    | eom st => exact ⟨[_], rfl, rfl⟩

/-- An emitted symbol is the first that the unit owed. -/
theorem State.emitOn_pays {t : State} (he : s.emitOn p = some t) (todo : List Sym) : s.Pays t p todo todo := by
  rcases State.emitOn_cases he with ⟨on, x, e, rfl, hx, rfl⟩ | ⟨on, x, d, rfl, hx, rfl⟩
  · refine ⟨[x], (State.deliver_frame _ x).2.2.2.2.2 ▸ rfl, ?_⟩
    rw [State.owed, EncRegs.owes_emit hx]
    cases x <;> rfl
  · refine ⟨[scuIf on .decode s.k x], (State.deliver_frame _ _).2.2.2.2.2 ▸ rfl, ?_⟩
    rw [State.owed, DecRegs.owes_emit hx]
    cases on <;> cases x <;> rfl

/-- With nothing held, nothing is owed for no symbols. -/
theorem State.owed_nil_of_reset (henc : s.enc = EncRegs.reset) (hdec : s.dec = DecRegs.reset) : s.owed p [] = [] := by
  cases p <;> simp only [State.owed, henc, hdec] <;> rfl

/-! What an idle unit owes for a whole message, path by path. -/

theorem State.owed_cipher (dir : Dir) (l : List Byte) (st : Byte) :
    s.owed (.cipher dir) (l.map .data ++ [.eom st]) = (l.map (sub dir s.k)).map .data ++ [.eom statusOk] := by
  simp [State.owed, scu, stripStatus, statusOk, Function.comp_def]

theorem State.owed_enc (henc : s.enc = EncRegs.reset) (on : Bool) (l : List Byte) (st : Byte) :
    s.owed (.enc on) (l.map .data ++ [.eom st]) =
      (compress (l.map (if on then subEnc s.k else id))).map .data ++ [.eom statusOk] := by
  have hin : (l.map Sym.data ++ [Sym.eom st]).map (fun x => scuIf on .encode s.k (stripStatus x)) =
      (l.map (if on then subEnc s.k else id)).map .data ++ [.eom statusOk] := by
    cases on <;> simp [stripStatus, scuIf, scu, sub, statusOk, Function.comp_def]
  rw [State.owed, henc, hin]
  exact congrArg Prod.fst (EncRegs.feed_reset _ statusOk)

theorem State.owed_dec (hdec : s.dec = DecRegs.reset) (on : Bool) (l : List Byte) (st : Byte) :
    s.owed (.dec on) (l.map .data ++ [.eom st]) =
      ((expandFrames l).map (if on then subDec s.k else id)).map .data ++ [.eom (streamStatus l.length)] := by
  have hin : (l.map Sym.data ++ [Sym.eom st]).map stripStatus = l.map .data ++ [.eom 0] := by
    simp [stripStatus, Function.comp_def]
  have howes : DecRegs.reset.owes (l.map .data ++ [.eom 0]) =
      (expandFrames l).map .data ++ [.eom (streamStatus l.length)] := congrArg Prod.fst (DecRegs.feed_reset l)
  rw [State.owed, hdec, hin, howes]
  cases on <;> simp [scuIf, scu, sub, Function.comp_def]

theorem State.owed_sink (l : List Byte) (st : Byte) :
    s.owed .sink (l.map .data ++ [.eom st]) = [.eom statusIllegalOp] := by
  simp [State.owed, sinkOut, List.filterMap_append, List.filterMap_map, Function.comp_def]

/-- The reference functions say what an idle unit emits for a message (R162). -/
theorem State.owed_message (henc : s.enc = EncRegs.reset) (hdec : s.dec = DecRegs.reset) (l : List Byte) (st : Byte) :
    s.owed (pathOf s.op) (l.map .data ++ [.eom st]) = emittedSyms s.op s.k l := by
  generalize s.op = op
  fin_cases op
  · exact State.owed_cipher .encode l st
  · exact State.owed_cipher .decode l st
  · exact (State.owed_enc henc false l st).trans (by rw [if_neg Bool.false_ne_true, List.map_id]; rfl)
  · exact (State.owed_dec hdec false l st).trans (by rw [if_neg Bool.false_ne_true, List.map_id]; rfl)
  · exact State.owed_enc henc true l st
  · exact State.owed_dec hdec true l st
  · exact State.owed_sink l st
  · exact State.owed_sink l st

end Owed

/-! ### The result that the host reads (R11) -/

/-- Bytes and one end are a result: the bytes, or the status and the offset. -/
theorem readResult_bytes_end (l : List Byte) (st : Byte) (off : Word) :
    readResult (l.map .data ++ [.eom st]) off = some (if st = statusOk then .ok l else .err st off) := by
  induction l with
  | nil => simp [readResult]
  | cons b l ih =>
    rw [List.map_cons, List.cons_append, readResult, ih]
    split_ifs <;> rfl

/-- `F(OP, K, l)` said through the symbols emitted and the status (R162). -/
theorem messageResult_eq (op : BitVec 3) (k : Fin 26) (l : List Byte) :
    messageResult op k l =
      if emittedStatus op l = statusOk then .ok (emittedBytes op k l)
      else .err (emittedStatus op l) (if emittedStatus op l = statusMalformed then l.length - 1 else 0) := by
  have hdecoder : ∀ f : Byte → Byte, (decompress l).mapBytes f =
      if streamStatus l.length = statusOk then .ok ((expandFrames l).map f)
      else .err (streamStatus l.length) (if streamStatus l.length = statusMalformed then l.length - 1 else 0) := by
    intro f
    by_cases heven : l.length % 2 = 0
    · simp [decompress, streamStatus, heven, Result.mapBytes]
    · simp [decompress, streamStatus, heven, Result.mapBytes, statusOk, statusMalformed]
  have hplain : decompress l = (decompress l).mapBytes id := by
    cases decompress l <;> simp [Result.mapBytes]
  have hrled := hplain.trans (hdecoder id)
  rw [List.map_id] at hrled
  fin_cases op
  · rfl
  · rfl
  · rfl
  · exact hrled
  · rfl
  · exact hdecoder (subDec k)
  · rfl
  · rfl

/-- Only an odd number of bytes is a malformed stream (R139). -/
theorem length_pos_of_malformed {op : BitVec 3} {l : List Byte} (h : emittedStatus op l = statusMalformed) :
    0 < l.length := by
  rcases l with _ | ⟨b, l⟩
  · revert h
    fin_cases op <;> decide
  · exact Nat.succ_pos _

end Sys2Proof.Machine
end

section
/-! PROOFS. The life of one message under every host and every order of turns (R59, R62, R162): before it, in it, after it;
what each move of a step does to these phases; and the result at the end. -/

namespace Sys2Proof.Machine

/-! ### The sequential units on a path -/

/-- The units meet their invariants, and one that is not on the path is at its reset values (R41). -/
structure State.UnitsOn (s : State) (p : Path) : Prop where
  encInv : s.enc.Inv
  decInv : s.dec.Inv
  encOff : (∀ on, p ≠ .enc on) → s.enc = EncRegs.reset
  decOff : (∀ on, p ≠ .dec on) → s.dec = DecRegs.reset

/-- A unit holds an output `END`: all the symbols of the message are accepted (R35, R40). -/
def State.ended (s : State) : Bool :=
  s.enc.endP || s.dec.endP

section Units
variable {s : State} {p : Path}

theorem State.unitsOn_of_reset (henc : s.enc = EncRegs.reset) (hdec : s.dec = DecRegs.reset) : s.UnitsOn p :=
  ⟨henc ▸ EncRegs.reset_inv, hdec ▸ DecRegs.reset_inv, fun _ => henc, fun _ => hdec⟩

theorem State.ended_of_reset (henc : s.enc = EncRegs.reset) (hdec : s.dec = DecRegs.reset) : s.ended = false := by
  rw [State.ended, henc, hdec]
  rfl

/-- A unit that holds an output `END` accepts nothing. -/
theorem State.UnitsOn.ended_of_ready (h : s.UnitsOn p) {x : Sym} (hr : s.inReady p x = true) : s.ended = false := by
  cases p with
  | cipher dir => exact State.ended_of_reset (h.encOff (by simp)) (h.decOff (by simp))
  | sink => exact State.ended_of_reset (h.encOff (by simp)) (h.decOff (by simp))
  | enc on =>
    rw [State.ended, (EncRegs.ready_iff.mp hr).2, h.decOff (by simp)]
    rfl
  | dec on =>
    rw [State.ended, (DecRegs.ready_iff.mp hr).2, h.encOff (by simp)]
    rfl

theorem EncRegs.accept_data_endP (e : EncRegs) (b : Byte) : (e.accept (.data b)).endP = e.endP := by
  simp only [EncRegs.accept]
  split_ifs <;> rfl

theorem DecRegs.accept_data_endP (d : DecRegs) (b : Byte) : (d.accept (.data b)).endP = d.endP := by
  simp only [DecRegs.accept]
  split_ifs <;> rfl

theorem DecRegs.accept_eom_endP (d : DecRegs) (st : Byte) : (d.accept (.eom st)).endP = true := by
  simp only [DecRegs.accept]
  split_ifs <;> rfl

theorem EncRegs.emit_data_endP {e e' : EncRegs} {b : Byte} (h : e.emit = some (.data b, e')) : e'.endP = e.endP := by
  rcases EncRegs.emit_cases h with ⟨-, -, rfl⟩ | ⟨-, -, rfl⟩ | ⟨-, -, hx, -⟩
  · rfl
  · rfl
  · cases hx

theorem EncRegs.emit_eom_endP {e e' : EncRegs} {st : Byte} (h : e.emit = some (.eom st, e')) : e.endP = true := by
  rcases EncRegs.emit_cases h with ⟨-, hx, -⟩ | ⟨-, hx, -⟩ | ⟨-, hp, -, -⟩
  · cases hx
  · cases hx
  · exact hp

theorem DecRegs.emit_data_endP {d d' : DecRegs} {b : Byte} (h : d.emit = some (.data b, d')) : d'.endP = d.endP := by
  rcases DecRegs.emit_cases h with ⟨-, -, rfl⟩ | ⟨-, -, hx, -⟩
  · rfl
  · cases hx

theorem DecRegs.emit_eom_endP {d d' : DecRegs} {st : Byte} (h : d.emit = some (.eom st, d')) : d.endP = true := by
  rcases DecRegs.emit_cases h with ⟨-, hx, -⟩ | ⟨-, hp, -, -⟩
  · cases hx
  · exact hp

/-- An accepted byte counts, sets `BUSY`, and leaves the units as they have to be. -/
theorem State.UnitsOn.acceptOn_data (h : s.UnitsOn p) {b : Byte} (hr : s.inReady p (.data b) = true) :
    (s.acceptOn p (.data b)).UnitsOn p ∧ (s.acceptOn p (.data b)).ended = s.ended ∧
    (s.acceptOn p (.data b)).busy = true ∧ (s.acceptOn p (.data b)).inOff = wrap s.width (s.inOff + 1) := by
  cases p with
  | cipher dir => exact ⟨⟨h.encInv, h.decInv, h.encOff, h.decOff⟩, rfl, rfl, rfl⟩
  | sink => exact ⟨⟨h.encInv, h.decInv, h.encOff, h.decOff⟩, rfl, rfl, rfl⟩
  | enc on =>
    rw [State.acceptOn_enc_data]
    exact ⟨⟨EncRegs.accept_inv h.encInv hr (by simp), h.decInv, fun hp => absurd rfl (hp on), h.decOff⟩,
      by simp only [State.ended, EncRegs.accept_data_endP], rfl, rfl⟩
  | dec on =>
    rw [State.acceptOn_dec_data]
    exact ⟨⟨h.encInv, DecRegs.accept_inv h.decInv hr (by simp), h.encOff, fun hp => absurd rfl (hp on)⟩,
      by simp only [State.ended, DecRegs.accept_data_endP], rfl, rfl⟩

/-- An accepted end passes to `out` at once where no sequential unit is on the path, and waits in that unit otherwise. -/
theorem State.UnitsOn.acceptOn_eom (h : s.UnitsOn p) {st : Byte} (hr : s.inReady p (.eom st) = true) :
    (s.enc = EncRegs.reset ∧ s.dec = DecRegs.reset ∧
      ∃ x, s.acceptOn p (.eom st) = State.deliver { s with busy := true } (.eom x)) ∨
    ((s.acceptOn p (.eom st)).UnitsOn p ∧ (s.acceptOn p (.eom st)).ended = true ∧
      (s.acceptOn p (.eom st)).busy = true ∧ (s.acceptOn p (.eom st)).inOff = s.inOff) := by
  cases p with
  | cipher dir => exact .inl ⟨h.encOff (by simp), h.decOff (by simp), _, rfl⟩
  | sink => exact .inl ⟨h.encOff (by simp), h.decOff (by simp), _, rfl⟩
  | enc on =>
    rw [State.acceptOn_enc_eom]
    exact .inr ⟨⟨EncRegs.accept_inv h.encInv hr (by simp), h.decInv, fun hp => absurd rfl (hp on), h.decOff⟩,
      rfl, rfl, rfl⟩
  | dec on =>
    rw [State.acceptOn_dec_eom]
    exact .inr ⟨⟨h.encInv, DecRegs.accept_inv h.decInv hr (by simp), h.encOff, fun hp => absurd rfl (hp on)⟩,
      by simp only [State.ended, DecRegs.accept_eom_endP, Bool.or_true], rfl, rfl⟩

/-- An emit step delivers a byte and goes on, or delivers the end that the unit held and leaves both units at reset. -/
theorem State.UnitsOn.emitOn (h : s.UnitsOn p) {t : State} (he : s.emitOn p = some t) :
    ∃ (e : EncRegs) (d : DecRegs) (x : Sym), t = State.deliver { s with enc := e, dec := d } x ∧
      ((∃ b, x = .data b) ∧ t.UnitsOn p ∧ t.ended = s.ended ∨
        (∃ st, x = .eom st) ∧ e = EncRegs.reset ∧ d = DecRegs.reset ∧ s.ended = true) := by
  rcases State.emitOn_cases he with ⟨on, x, e, rfl, hx, rfl⟩ | ⟨on, x, d, rfl, hx, rfl⟩
  · refine ⟨e, s.dec, x, rfl, ?_⟩
    cases x with
    | data b =>
      exact .inl ⟨⟨b, rfl⟩, ⟨EncRegs.emit_inv h.encInv hx, h.decInv, fun hp => absurd rfl (hp on), h.decOff⟩,
        by simp [State.ended, EncRegs.emit_data_endP hx]⟩
    | eom st =>
      exact .inr ⟨⟨st, rfl⟩, (EncRegs.emit_end_reset h.encInv hx).2, h.decOff (by simp),
        by simp [State.ended, EncRegs.emit_eom_endP hx]⟩
  · refine ⟨s.enc, d, scuIf on .decode s.k x, rfl, ?_⟩
    cases x with
    | data b =>
      obtain ⟨c, hc⟩ : ∃ c, scuIf on .decode s.k (.data b) = .data c := by cases on <;> exact ⟨_, rfl⟩
      rw [hc]
      exact .inl ⟨⟨c, rfl⟩, ⟨h.encInv, DecRegs.emit_inv h.decInv hx, h.encOff, fun hp => absurd rfl (hp on)⟩,
        by simp [State.ended, DecRegs.emit_data_endP hx]⟩
    | eom st =>
      have hc : scuIf on .decode s.k (.eom st) = .eom st := by cases on <;> rfl
      exact .inr ⟨⟨st, hc⟩, h.encOff (by simp), (DecRegs.emit_end_reset h.decInv hx).2,
        by simp [State.ended, DecRegs.emit_eom_endP hx]⟩

end Units

/-! ### The words of the record -/

theorem wrap_wrap_succ (w n : Nat) : wrap w (wrap w n + 1) = wrap w (n + 1) :=
  Nat.mod_add_mod n (2 ^ w) 1

/-- The offset of the last of `n` bytes, from their count mod `2 ^ w` (R27). -/
theorem wrapPred_wrap (w : Nat) {n : Nat} (h : 0 < n) : wrapPred w (wrap w n) = wrap w (n - 1) := by
  have hpos : 0 < 2 ^ w := Nat.two_pow_pos w
  obtain ⟨m, rfl⟩ := Nat.exists_eq_succ_of_ne_zero h.ne'
  rw [wrapPred, wrap, wrap, Nat.mod_add_mod, show m.succ + (2 ^ w - 1) = m + 2 ^ w by omega, Nat.add_mod_right]
  rfl

/-! ### The phases of a message -/

theorem State.acceptOn_stream (s : State) (p : Path) (x : Sym) : (s.acceptOn p x).stream = s.stream := by
  obtain ⟨-, -, -, new, hhost⟩ := s.acceptOn_frame p x
  rw [State.stream, hhost]
  rfl

/-- While `BUSY = 1` the port's turn changes no register (R62, R173). -/
theorem State.serveCfg_of_busy {s : State} (h : s.busy = true) : s.HostMove s.serveCfg := by
  rcases s.serveCfg_cases with hs | ⟨c, rest, -, hr, hs⟩ <;> rw [hs]
  · exact .move _ rfl rfl
  · cases c with
    | read a => exact .move _ rfl rfl
    | write a v => simp [State.cfgReady, h] at hr

theorem State.HostMove.stream_eq {s u : State} (h : s.HostMove u) : u.stream = s.stream := by
  cases h with
  | move _ hstream _ => exact hstream

theorem State.HostMove.busy_eq {s u : State} (h : s.HostMove u) : u.busy = s.busy := by
  cases h
  rfl

/-- A message on its way into a unit: the idle state it starts from, its bytes, the status the host drives with its end, and
the symbols that come behind it. -/
structure Message where
  start : State
  bytes : List Byte
  st : Byte
  behind : List Sym

namespace Message

/-- The symbols of the message on `in`. -/
def syms (m : Message) : List Sym :=
  m.bytes.map .data ++ [.eom m.st]

/-- The path that the configuration of the idle state selects. -/
def path (m : Message) : Path :=
  pathOf m.start.op

/-- The message is what the idle unit takes next. -/
def Starts (m : Message) : Prop :=
  m.start.Idle ∧ m.start.stream = m.syms ++ m.behind

/-- `W`, `OP` and `SHIFT` are those the message started with. -/
def Config (m : Message) (u : State) : Prop :=
  u.width = m.start.width ∧ u.op = m.start.op ∧ u.shift = m.start.shift

/-- The unit has taken nothing of the message; accesses may have changed the configuration. -/
structure Before (m : Message) (u : State) : Prop where
  idle : u.Idle
  width : u.width = m.start.width
  stream : u.stream = m.start.stream
  out : u.host.out = m.start.host.out

/-- The unit, under the message's configuration, has accepted the bytes `taken`; of the message's symbols `todo` are still
to come, none of them once a unit holds the end. -/
structure Open (m : Message) (u : State) (taken : List Byte) (todo : List Sym) : Prop where
  config : m.Config u
  units : u.UnitsOn m.path
  pays : m.start.Pays u m.path m.syms todo
  count : u.inOff = wrap m.start.width taken.length
  split : (u.ended = false ∧ ∃ r, m.bytes = taken ++ r ∧ todo = r.map .data ++ [.eom m.st]) ∨
    (u.ended = true ∧ taken = m.bytes ∧ todo = [])

/-- The message is over: its result is out and recorded, and the unit is idle under the message's configuration. -/
structure Past (m : Message) (u : State) : Prop where
  config : m.Config u
  idle : u.Idle
  stream : u.stream = m.behind
  out : u.host.out = m.start.host.out ++ emittedSyms m.start.op m.start.k m.bytes
  done : u.done = true
  lastStatus : u.lastStatus = emittedStatus m.start.op m.bytes
  errOffset : u.errOffset =
    if emittedStatus m.start.op m.bytes = statusMalformed then wrap m.start.width (m.bytes.length - 1) else 0

/-- Where a message stands. -/
inductive Phase (m : Message) (u : State) : Prop where
  | before (h : m.Before u)
  | during {taken : List Byte} {todo : List Sym} (h : m.Open u taken todo) (hstream : u.stream = todo ++ m.behind)
      (hbusy : u.busy = true)
  | past (h : m.Past u)

variable {m : Message} {u v t : State} {taken : List Byte} {todo : List Sym}

theorem Before.hostMove (h : m.Before u) (hv : u.HostMove v) : m.Before v := by
  cases hv with
  | move _ hstream hout => exact ⟨h.idle, h.width, hstream.trans h.stream, hout.trans h.out⟩

/-- An access performed before the message leaves the unit idle. -/
theorem Before.serveCfg (h : m.Before u) : m.Before u.serveCfg := by
  rw [u.serveCfg_effect.1]
  exact ⟨h.idle, h.width, h.stream, h.out⟩

/-- An idle unit that still has the message's configuration can take it. -/
theorem Before.isOpen (hm : m.Starts) (h : m.Before u) (hop : u.op = m.start.op) (hshift : u.shift = m.start.shift) :
    m.Open u [] m.syms := by
  obtain ⟨⟨-, -, hsenc, hsdec⟩, -⟩ := hm
  obtain ⟨-, hoff, henc, hdec⟩ := h.idle
  have howed : m.start.owed m.path m.syms = u.owed m.path m.syms := by
    cases hp : m.path <;> simp only [State.owed, State.k, henc, hdec, hsenc, hsdec, hshift, h.width]
  exact
    { config := ⟨h.width, hop, hshift⟩
      units := State.unitsOn_of_reset henc hdec
      pays := ⟨[], by rw [h.out, List.append_nil], howed⟩
      count := by rw [hoff]; exact (Nat.zero_mod _).symm
      split := .inl ⟨State.ended_of_reset henc hdec, m.bytes, rfl, rfl⟩ }

/-- Nothing that the host does to its ports but for `out` matters to an open message. -/
theorem Open.withHost (h : m.Open u taken todo) {x : HostSide} (hout : x.out = u.host.out) :
    m.Open { u with host := x } taken todo := by
  obtain ⟨new, hnew, howed⟩ := h.pays
  exact ⟨h.config, ⟨h.units.encInv, h.units.decInv, h.units.encOff, h.units.decOff⟩, ⟨new, hout.trans hnew, howed⟩,
    h.count, h.split⟩

theorem Open.hostMove (h : m.Open u taken todo) (hv : u.HostMove v) : m.Open v taken todo := by
  cases hv with
  | move _ _ hout => exact h.withHost hout

/-- The step that delivers the message's end completes it (R152): what came out before and this end are all that was owed,
so the status recorded is the one the reference functions give. -/
theorem Past.of_deliver (hm : m.Starts) (hconfig : m.Config v) (henc : v.enc = EncRegs.reset) (hdec : v.dec = DecRegs.reset)
    (hstream : v.stream = m.behind) (hcount : v.inOff = wrap m.start.width m.bytes.length) {x : Byte}
    (hpays : m.start.Pays (v.deliver (.eom x)) m.path m.syms []) : m.Past (v.deliver (.eom x)) := by
  obtain ⟨⟨-, -, hsenc, hsdec⟩, -⟩ := hm
  obtain ⟨new, hout, howed⟩ := hpays
  have hnew : new = emittedSyms m.start.op m.start.k m.bytes := by
    rw [State.owed_nil_of_reset (s := v.deliver (.eom x)) henc hdec, List.append_nil] at howed
    exact howed.symm.trans (State.owed_message hsenc hsdec m.bytes m.st)
  subst hnew
  have hstatus : x = emittedStatus m.start.op m.bytes := by
    have hlast : v.host.out ++ [Sym.eom x] = m.start.host.out ++ emittedSyms m.start.op m.start.k m.bytes := hout
    rw [emittedSyms, ← List.append_assoc] at hlast
    simpa using (List.append_inj' hlast rfl).2
  exact
    { config := hconfig
      idle := ⟨rfl, rfl, henc, hdec⟩
      stream := hstream
      out := hout
      done := rfl
      lastStatus := hstatus
      errOffset := by
        rw [State.deliver_eom_errOffset, hstatus, hcount, hconfig.1]
        split_ifs with hmal
        · exact wrapPred_wrap _ (length_pos_of_malformed hmal)
        · rfl }

theorem Open.acceptOn_config (h : m.Open u taken todo) (x : Sym) : m.Config (u.acceptOn m.path x) := by
  obtain ⟨hwidth, hop, hshift, -⟩ := u.acceptOn_frame m.path x
  exact ⟨hwidth.trans h.config.1, hop.trans h.config.2.1, hshift.trans h.config.2.2⟩

theorem Open.accept_data {b : Byte} {r : List Byte} (h : m.Open u taken (.data b :: (r.map .data ++ [.eom m.st])))
    (hbytes : m.bytes = taken ++ b :: r) (hr : u.inReady m.path (.data b) = true)
    (hstream : u.stream = r.map .data ++ [.eom m.st] ++ m.behind) : m.Phase (u.acceptOn m.path (.data b)) := by
  obtain ⟨hunits, hended, hbusy, hoff⟩ := h.units.acceptOn_data hr
  have hopen : m.Open (u.acceptOn m.path (.data b)) (taken ++ [b]) (r.map .data ++ [.eom m.st]) :=
    { config := h.acceptOn_config _
      units := hunits
      pays := h.pays.trans (State.acceptOn_pays hr _)
      count := by
        rw [hoff, h.count, h.config.1, wrap_wrap_succ, List.length_append]
        rfl
      split := .inl ⟨hended.trans (h.units.ended_of_ready hr), r, by rw [hbytes, List.append_assoc]; rfl, rfl⟩ }
  exact .during hopen ((u.acceptOn_stream _ _).trans hstream) hbusy

theorem Open.accept_eom (hm : m.Starts) (h : m.Open u m.bytes [.eom m.st]) (hr : u.inReady m.path (.eom m.st) = true)
    (hstream : u.stream = m.behind) : m.Phase (u.acceptOn m.path (.eom m.st)) := by
  have hpays := h.pays.trans (State.acceptOn_pays hr [])
  rcases h.units.acceptOn_eom hr with ⟨henc, hdec, y, hy⟩ | ⟨hunits, hended, hbusy, hoff⟩
  · rw [hy] at hpays ⊢
    exact .past (Past.of_deliver hm h.config henc hdec hstream h.count hpays)
  · exact .during ⟨h.acceptOn_config _, hunits, hpays, hoff.trans h.count, .inr ⟨hended, rfl, rfl⟩⟩
      ((u.acceptOn_stream _ _).trans hstream) hbusy

/-- The oldest symbol offered is the next one of the message. -/
theorem Open.accept (hm : m.Starts) (h : m.Open u taken todo) (hstream : u.stream = todo ++ m.behind) {x : Sym}
    {tail : List Sym} (hin : u.host.inPend = x :: tail) (hr : u.inReady m.path x = true) :
    m.Phase (State.acceptOn { u with host := { u.host with inPend := tail } } m.path x) := by
  have hpop : m.Open { u with host := { u.host with inPend := tail } } taken todo := h.withHost rfl
  rw [State.stream, hin] at hstream
  rcases h.split with ⟨-, r, hbytes, rfl⟩ | ⟨hended, -, -⟩
  · cases r with
    | cons b r =>
      obtain ⟨rfl, hrest⟩ := List.cons.inj hstream
      exact hpop.accept_data hbytes hr hrest
    | nil =>
      obtain ⟨rfl, hrest⟩ := List.cons.inj hstream
      rw [List.append_nil] at hbytes
      subst hbytes
      exact hpop.accept_eom hm hr hrest
  · rw [h.units.ended_of_ready hr] at hended
    cases hended

theorem Open.emit (hm : m.Starts) (h : m.Open u taken todo) (hstream : u.stream = todo ++ m.behind)
    (hbusy : u.busy = true) (he : u.emitOn m.path = some t) : m.Phase t := by
  have hpays := h.pays.trans (State.emitOn_pays he todo)
  obtain ⟨e, d, x, rfl, ⟨⟨b, rfl⟩, hunits, hended⟩ | ⟨⟨st, rfl⟩, henc, hdec, hend⟩⟩ := h.units.emitOn he
  · exact .during ⟨h.config, hunits, hpays, h.count, hended ▸ h.split⟩ hstream hbusy
  · rcases h.split with ⟨hopen, -⟩ | ⟨-, rfl, rfl⟩
    · rw [hopen] at hend
      cases hend
    · exact .past (Past.of_deliver (v := { u with enc := e, dec := d }) hm h.config henc hdec hstream h.count hpays)

/-- A move of the unit: from an idle unit it can only be an accept. -/
theorem Open.unitMove (hm : m.Starts) (h : m.Open u taken todo) (hstream : u.stream = todo ++ m.behind)
    (hstay : m.Phase u) (hemit : u.busy = true ∨ u.emitOn m.path = none) (ht : u.UnitMove m.path t) : m.Phase t := by
  cases ht with
  | wait => exact hstay
  | accept hin hr => exact h.accept hm hstream hin hr
  | emit he =>
    rcases hemit with hbusy | hnone
    · exact h.emit hm hstream hbusy he
    · rw [hnone] at he
      cases he

/-- Every step but reset keeps the phases in their order, until the message is past. -/
theorem Phase.step (hm : m.Starts) (hu : m.Phase u) (hreset : ¬ u.ResetIsNext) (hpast : m.start.NotPastMessage u)
    (h : step u = .next t) : m.Phase t := by
  obtain ⟨v, hmove, hnext⟩ := (step_cases h).resolve_left hreset
  cases hu with
  | before hbefore =>
    obtain ⟨-, hop, hshift⟩ := hpast.resolve_left (by simp [hbefore.idle.1])
    have hv := hbefore.hostMove hmove
    have hopen := (hbefore.isOpen hm hop hshift).hostMove hmove
    rcases hnext with hunit | rfl
    · rw [hopen.config.2.1] at hunit
      obtain ⟨-, -, henc, hdec⟩ := hv.idle
      exact hopen.unitMove hm (hv.stream.trans hm.2) (.before hv) (.inr (State.emitOn_of_reset henc hdec _)) hunit
    · exact .before hv.serveCfg
  | during hopen hstream hbusy =>
    have hv := hopen.hostMove hmove
    have hvstream : v.stream = _ := hmove.stream_eq.trans hstream
    have hvbusy : v.busy = true := hmove.busy_eq.trans hbusy
    rcases hnext with hunit | rfl
    · rw [hv.config.2.1] at hunit
      exact hv.unitMove hm hvstream (.during hv hvstream hvbusy) (.inl hvbusy) hunit
    · have hserve := State.serveCfg_of_busy hvbusy
      exact .during (hv.hostMove hserve) (hserve.stream_eq.trans hvstream) (hserve.busy_eq.trans hvbusy)
  | past hpastMsg =>
    obtain ⟨hstream, -⟩ := hpast.resolve_left (by simp [hpastMsg.idle.1])
    have hlen := congrArg List.length (hpastMsg.stream.symm.trans (hstream.trans hm.2))
    simp only [syms, List.length_append, List.length_map, List.length_singleton] at hlen
    omega

end Message

/-! ### Runs -/

/-- One more step at the end of a run. -/
theorem run_succ {M : Host.Core} {n : Nat} {s t : M.State} (h : M.run (n + 1) s = .next t) :
    ∃ u, M.run n s = .next u ∧ M.step u = .next t := by
  induction n generalizing s with
  | zero =>
    rw [Host.Core.run] at h
    rcases hs : M.step s with u | r | r <;> rw [hs] at h
    · exact ⟨s, rfl, hs.trans h⟩
    · cases h
    · cases h
  | succ n ih =>
    rw [Host.Core.run] at h
    rcases hs : M.step s with u | r | r <;> rw [hs] at h
    · obtain ⟨v, hv, ht⟩ := ih h
      exact ⟨v, by rw [Host.Core.run, hs]; exact hv, ht⟩
    · cases h
    · cases h

namespace Message

variable {m : Message} {t : State}

/-- A run that neither resets the unit nor goes past the message keeps to its phases. -/
theorem Phase.of_run (hm : m.Starts) {n : Nat}
    (hrun : ∀ (k : Nat) (u : State), k < n → Sys2Proof.core.run k m.start = .next u →
      ¬ u.ResetIsNext ∧ m.start.NotPastMessage u)
    (h : Sys2Proof.core.run n m.start = .next t) : m.Phase t := by
  induction n generalizing t with
  | zero =>
    cases h
    exact .before ⟨hm.1, rfl, rfl, rfl⟩
  | succ n ih =>
    obtain ⟨u, hu, ht⟩ := run_succ h
    obtain ⟨hreset, hpast⟩ := hrun n u n.lt_succ_self hu
    exact (ih (fun k v hk => hrun k v (hk.trans n.lt_succ_self)) hu).step hm hreset hpast ht

/-- What the host reads of a message that is over is its result (R11, R162). -/
theorem Past.readResult_eq (h : m.Past t) (hlen : m.bytes.length ≤ 2 ^ m.start.width) :
    readResult (emittedSyms m.start.op m.start.k m.bytes) t.errOffset =
      some (messageResult m.start.op m.start.k m.bytes) := by
  have hoff : t.errOffset =
      if emittedStatus m.start.op m.bytes = statusMalformed then m.bytes.length - 1 else 0 := by
    rw [h.errOffset]
    split_ifs with hmal
    · have hpos := length_pos_of_malformed hmal
      exact Nat.mod_eq_of_lt (by omega)
    · rfl
  rw [emittedSyms, readResult_bytes_end, messageResult_eq, hoff]

end Message

end Sys2Proof.Machine

open Sys2Proof Sys2Proof.Machine

/-- Settles O57: the run keeps to the phases of the message. Before it nothing is out; in it the unit still owes the rest of
the message's symbols; after it nothing is owed. -/
theorem everyOrderGivesMessageResult : Obligations.EveryOrderGivesMessageResult := by
  intro s t l st rest n hidle hstream hrun h
  have hm : Message.Starts ⟨s, l, st, rest⟩ := ⟨hidle, by simpa [Message.syms] using hstream⟩
  obtain ⟨-, -, henc, hdec⟩ := id hidle
  cases Message.Phase.of_run hm hrun h with
  | before hbefore =>
    exact ⟨[], _, by rw [hbefore.out, List.append_nil], rfl, fun hne => absurd hbefore.stream hne⟩
  | during hopen _ hbusy =>
    obtain ⟨new, hout, howed⟩ := hopen.pays
    refine ⟨new, _, hout, (State.owed_message henc hdec l st).symm.trans howed, fun _ => ?_⟩
    obtain ⟨hwidth, hop, hshift⟩ := hopen.config
    exact ⟨hwidth, hop, hshift, fun hfree => absurd (hbusy.symm.trans hfree) (by decide)⟩
  | past hpast =>
    obtain ⟨hwidth, hop, hshift⟩ := hpast.config
    exact ⟨_, [], hpast.out, (List.append_nil _).symm, fun _ => ⟨hwidth, hop, hshift, fun _ =>
      ⟨rfl, hpast.stream, hpast.idle, hpast.done, hpast.lastStatus, hpast.errOffset, hpast.readResult_eq⟩⟩⟩
end

section
/-! PROOFS. The state invariant of R41, part by part (R20, R35, R36, R40): what each move of the unit and of the port does to
the widths, to the record and to the sequential units; then every step, and every run from reset. -/

namespace Sys2Proof.Machine

/-! ### Widths (R5, R20) -/

theorem wrap_lt (w n : Nat) : wrap w n < 2 ^ w :=
  Nat.mod_lt n (Nat.two_pow_pos w)

section Moves
variable {s t : State} {p : Path}

theorem State.Fits.deliver (h : s.Fits) (x : Sym) : (s.deliver x).Fits := by
  obtain ⟨hw, hshift, herr, hoff⟩ := h
  cases x with
  | data b => exact ⟨hw, hshift, herr, hoff⟩
  | eom st =>
    refine ⟨hw, hshift, ?_, Nat.two_pow_pos _⟩
    rw [State.deliver_eom_errOffset]
    split_ifs
    · exact wrap_lt _ _
    · exact Nat.two_pow_pos _

theorem State.Fits.noteAccept (h : s.Fits) (x : Sym) : (s.noteAccept x).Fits := by
  obtain ⟨hw, hshift, herr, hoff⟩ := h
  cases x with
  | data b => exact ⟨hw, hshift, herr, wrap_lt _ _⟩
  | eom st => exact ⟨hw, hshift, herr, hoff⟩

theorem State.Fits.acceptOn (h : s.Fits) (p : Path) (x : Sym) : (s.acceptOn p x).Fits := by
  have hnote := h.noteAccept x
  cases p with
  | cipher dir => exact hnote.deliver _
  | enc on => exact hnote
  | dec on => exact hnote
  | sink =>
    cases x with
    | data b => exact hnote
    | eom st => exact hnote.deliver _

theorem State.Fits.unitMove (h : s.Fits) (ht : s.UnitMove p t) : t.Fits := by
  cases ht with
  | wait => exact h
  | @accept x rest => exact State.Fits.acceptOn (s := { s with host := { s.host with inPend := rest } }) h p x
  | emit he =>
    rcases State.emitOn_cases he with ⟨_, x, e, -, -, rfl⟩ | ⟨_, x, d, -, -, rfl⟩
    · exact State.Fits.deliver (s := { s with enc := e }) h _
    · exact State.Fits.deliver (s := { s with dec := d }) h _

/-- A write stores `OP` or a wrapped `SHIFT`; nothing else of the port's turn is a word of `W` bits. -/
theorem State.Fits.serveCfg (h : s.Fits) : s.serveCfg.Fits := by
  obtain ⟨hw, hshift, herr, hoff⟩ := h
  rcases s.serveCfg_cases with hs | ⟨c, rest, -, -, hs⟩ <;> rw [hs]
  · exact ⟨hw, hshift, herr, hoff⟩
  · cases c with
    | read a => exact ⟨hw, hshift, herr, hoff⟩
    | write a v =>
      simp only [State.perform, State.cfgStore_eq]
      split_ifs
      · exact ⟨hw, hshift, herr, hoff⟩
      · exact ⟨hw, wrap_lt _ _, herr, hoff⟩
      · exact ⟨hw, hshift, herr, hoff⟩

/-! ### The record (R26, R41 (i)) -/

/-- The status recorded is one of the three codes, and only a malformed stream has an offset (R41 (i)). -/
def State.RecordInv (s : State) : Prop :=
  LegalStatus s.lastStatus ∧ (s.lastStatus ≠ statusMalformed → s.errOffset = 0)

/-- The step that emits an end records its status, whatever the record was (R152). -/
theorem State.recordInv_deliver_eom {st : Byte} (h : LegalStatus st) : (s.deliver (.eom st)).RecordInv :=
  ⟨h, fun hne => if_neg hne⟩

theorem State.RecordInv.acceptOn (h : s.RecordInv) (p : Path) (x : Sym) : (s.acceptOn p x).RecordInv := by
  cases x with
  | data b => cases p <;> exact h
  | eom st =>
    cases p with
    | cipher dir => exact State.recordInv_deliver_eom (.inl rfl)
    | enc on => exact h
    | dec on => exact h
    | sink => exact State.recordInv_deliver_eom (.inr (.inr rfl))

/-- The statuses that the sequential units hold are legal, so an emit step records a legal one. -/
theorem State.RecordInv.emitOn (h : s.RecordInv) (henc : s.enc.Inv) (hdec : s.dec.Inv) (he : s.emitOn p = some t) :
    t.RecordInv := by
  rcases State.emitOn_cases he with ⟨on, x, e, -, hx, rfl⟩ | ⟨on, x, d, -, hx, rfl⟩
  · cases x with
    | data b => exact h
    | eom st => exact State.recordInv_deliver_eom (.inl (EncRegs.emit_end_reset henc hx).1)
  · cases x with
    | data b => cases on <;> exact h
    | eom st =>
      have hlegal : LegalStatus st := by
        rw [(DecRegs.emit_end_reset hdec hx).1]
        obtain ⟨-, -, -, -, hst⟩ := hdec
        exact hst.imp_right .inl
      cases on <;> exact State.recordInv_deliver_eom hlegal

/-! ### The sequential units (R41 (a) to (h)) -/

theorem pathOf_enc_iff (op : BitVec 3) : (∃ on, pathOf op = .enc on) ↔ op = 2 ∨ op = 4 := by
  fin_cases op <;> decide

theorem pathOf_dec_iff (op : BitVec 3) : (∃ on, pathOf op = .dec on) ↔ op = 3 ∨ op = 5 := by
  fin_cases op <;> decide

/-- Without a message in flight the unit is idle (R41 (h)). -/
def State.IdleUnlessBusy (s : State) : Prop :=
  s.busy = false → s.inOff = 0 ∧ s.enc = EncRegs.reset ∧ s.dec = DecRegs.reset

/-- R41 as its parts: the widths, the units on the path that `OP` selects, the idle state, the record. -/
theorem State.inv_iff :
    s.Inv ↔ s.Fits ∧ s.UnitsOn (pathOf s.op) ∧ s.IdleUnlessBusy ∧ s.RecordInv := by
  have henc : (∀ on, pathOf s.op ≠ .enc on) ↔ s.op ≠ 2 ∧ s.op ≠ 4 := by
    rw [← not_exists, pathOf_enc_iff, not_or]
  have hdec : (∀ on, pathOf s.op ≠ .dec on) ↔ s.op ≠ 3 ∧ s.op ≠ 5 := by
    rw [← not_exists, pathOf_dec_iff, not_or]
  constructor
  · rintro ⟨hfits, he, hd, heoff, hdoff, hidle, hrec⟩
    exact ⟨hfits, ⟨he, hd, fun h => heoff (henc.mp h), fun h => hdoff (hdec.mp h)⟩, hidle, hrec⟩
  · rintro ⟨hfits, hunits, hidle, hrec⟩
    exact ⟨hfits, hunits.encInv, hunits.decInv, fun h => hunits.encOff (henc.mpr h),
      fun h => hunits.decOff (hdec.mpr h), hidle, hrec⟩

theorem State.UnitsOn.withHost (h : s.UnitsOn p) (x : HostSide) : State.UnitsOn { s with host := x } p :=
  ⟨h.encInv, h.decInv, h.encOff, h.decOff⟩

/-- After an accepted symbol the unit is busy, or it passed the message's end and holds nothing. -/
theorem State.UnitsOn.acceptOn (h : s.UnitsOn p) {x : Sym} (hr : s.inReady p x = true) :
    (s.acceptOn p x).UnitsOn p ∧ (s.acceptOn p x).IdleUnlessBusy := by
  have busy : ∀ {u : State}, u.busy = true → u.IdleUnlessBusy := fun hb hf => absurd (hb.symm.trans hf) (by decide)
  cases x with
  | data b =>
    obtain ⟨hunits, -, hbusy, -⟩ := h.acceptOn_data hr
    exact ⟨hunits, busy hbusy⟩
  | eom st =>
    rcases h.acceptOn_eom hr with ⟨henc, hdec, y, hy⟩ | ⟨hunits, -, hbusy, -⟩
    · rw [hy]
      exact ⟨State.unitsOn_of_reset henc hdec, fun _ => ⟨rfl, henc, hdec⟩⟩
    · exact ⟨hunits, busy hbusy⟩

/-- An emit step goes on with a busy unit, or emits the message's end and leaves the unit idle: an idle unit has nothing to
emit. -/
theorem State.UnitsOn.emitOn_idle (h : s.UnitsOn p) (hidle : s.IdleUnlessBusy) (he : s.emitOn p = some t) :
    t.UnitsOn p ∧ t.IdleUnlessBusy := by
  obtain ⟨e, d, x, rfl, ⟨⟨b, rfl⟩, hunits, -⟩ | ⟨⟨st, rfl⟩, rfl, rfl, -⟩⟩ := h.emitOn he
  · refine ⟨hunits, fun hbusy => ?_⟩
    obtain ⟨-, henc, hdec⟩ := hidle hbusy
    rw [State.emitOn_of_reset henc hdec] at he
    cases he
  · exact ⟨State.unitsOn_of_reset rfl rfl, fun _ => ⟨rfl, rfl, rfl⟩⟩

/-! ### The moves of a step -/

theorem State.UnitMove.config (ht : s.UnitMove p t) :
    t.width = s.width ∧ t.op = s.op ∧ t.shift = s.shift ∧
    t.host = { s.host with inPend := t.host.inPend, out := t.host.out } := by
  cases ht with
  | wait => exact ⟨rfl, rfl, rfl, rfl⟩
  | accept =>
    obtain ⟨hwidth, hop, hshift, new, hhost⟩ := State.acceptOn_frame { s with host := _ } p _
    exact ⟨hwidth, hop, hshift, by rw [hhost]⟩
  | emit he =>
    rcases State.emitOn_cases he with ⟨_, x, _, -, -, rfl⟩ | ⟨_, x, _, -, -, rfl⟩ <;>
    · obtain ⟨hwidth, hop, hshift, -, -, hhost⟩ := State.deliver_frame _ _
      exact ⟨hwidth, hop, hshift, by rw [hhost]⟩

/-- The unit's move keeps R41, on the path that `OP` selects. -/
theorem State.Inv.unitMove (h : s.Inv) (ht : s.UnitMove (pathOf s.op) t) : t.Inv := by
  obtain ⟨hfits, hunits, hidle, hrec⟩ := State.inv_iff.mp h
  obtain ⟨-, hop, -, -⟩ := ht.config
  rw [State.inv_iff, hop]
  refine ⟨hfits.unitMove ht, ?_⟩
  cases ht with
  | wait => exact ⟨hunits, hidle, hrec⟩
  | @accept x rest hin hr =>
    obtain ⟨hunits', hidle'⟩ := (hunits.withHost { s.host with inPend := rest }).acceptOn hr
    exact ⟨hunits', hidle', State.RecordInv.acceptOn (s := { s with host := { s.host with inPend := rest } }) hrec _ x⟩
  | emit he =>
    obtain ⟨hunits', hidle'⟩ := hunits.emitOn_idle hidle he
    exact ⟨hunits', hidle', hrec.emitOn hunits.encInv hunits.decInv he⟩

theorem State.HostMove.config (ht : s.HostMove t) : t.op = s.op ∧ t.shift = s.shift := by
  cases ht
  exact ⟨rfl, rfl⟩

theorem State.Inv.hostMove (h : s.Inv) (ht : s.HostMove t) : t.Inv := by
  cases ht
  exact h

/-- The port's turn keeps R41: while `BUSY = 1` it changes no register, and an idle unit has the registers of every `OP`. -/
theorem State.Inv.serveCfg (h : s.Inv) : s.serveCfg.Inv := by
  rcases hbusy : s.busy with _ | _
  · obtain ⟨hfits, -, hidle, hrec⟩ := State.inv_iff.mp h
    obtain ⟨-, henc, hdec⟩ := hidle hbusy
    rw [State.inv_iff]
    refine ⟨hfits.serveCfg, ?_⟩
    rw [s.serveCfg_effect.1]
    exact ⟨State.unitsOn_of_reset henc hdec, hidle, hrec⟩
  · exact h.hostMove (State.serveCfg_of_busy hbusy)

/-! ### The reset event as a step -/

theorem step_reset (h : s.ResetIsNext) : ∃ x, step s = .next (State.resetWith s.width x) := by
  obtain ⟨hturn, hhead⟩ := h
  obtain ⟨rest, hscript⟩ := List.head?_eq_some_iff.mp hhead
  refine ⟨{ s.host with script := rest, sched := s.host.sched.tail }, ?_⟩
  rw [step, State.nextTurn_eq, hturn]
  simp [State.nextAction, State.popTurn, hscript, State.resetEvent]

/-- R29 right after reset: two of the registers read are computed, `STATUS` from its fields and `K` from a `SHIFT` of 0. -/
theorem State.cfgValue_reset (w : Nat) (h : HostSide) (a : CfgIndex) : (State.resetWith w h).cfgValue a = 0 := by
  have hstatus : (State.resetWith w h).statusWord = 0 := by simp [State.statusWord, State.resetWith]
  have hk : (State.resetWith w h).k = 0 := by simp [State.k, State.resetWith, shiftResidue, effShift, fmod26]
  unfold State.cfgValue
  split
  · rfl
  · rfl
  · exact hstatus
  · rfl
  · exact congrArg Fin.val hk
  · rfl

/-! ### The decoder's phase (R36) -/

theorem DecRegs.accept_data_ph (d : DecRegs) (b : Byte) : (d.accept (.data b)).ph = !d.ph := by
  simp only [DecRegs.accept]
  split_ifs <;> simp [*]

/-- The count of accepted bytes wraps at an even number, so one more byte turns its parity (R28). -/
theorem testBit_zero_wrap_succ {w : Nat} (hw : 0 < w) (n : Nat) : (wrap w (n + 1)).testBit 0 = !n.testBit 0 := by
  have hparity : (n + 1) % 2 = 1 ↔ ¬ n % 2 = 1 := by omega
  rw [wrap, Nat.testBit_mod_two_pow, decide_eq_true hw, Bool.true_and, Nat.testBit_zero, Nat.testBit_zero,
    decide_eq_decide.mpr hparity, decide_not]

/-- R36 at a message's start or end. -/
theorem State.phaseInv_of_reset (hdec : s.dec = DecRegs.reset) (hoff : s.inOff = 0) : s.PhaseInv := by
  intro _ _
  rw [hdec, hoff]
  rfl

/-- On a decoder path a byte turns both the phase and the parity, an end leaves an end pending, a repetition changes
neither, and the output end resets both. -/
theorem State.PhaseInv.unitMove (h : s.PhaseInv) (hinv : s.Inv) (ht : s.UnitMove (pathOf s.op) t) : t.PhaseInv := by
  intro hsel hend
  obtain ⟨hfits, hunits, -⟩ := State.inv_iff.mp hinv
  have hwidth : 0 < s.width := lt_of_lt_of_le (by decide) hfits.1
  rw [ht.config.2.1] at hsel
  obtain ⟨on, hp⟩ := (pathOf_dec_iff s.op).mpr hsel
  rw [hp] at ht
  cases ht with
  | wait => exact h hsel hend
  | @accept x rest _ hr =>
    cases x with
    | data b =>
      have hph : s.dec.ph = s.inOff.testBit 0 := h hsel (DecRegs.ready_iff.mp hr).2
      rw [State.acceptOn_dec_data]
      change (s.dec.accept (.data b)).ph = (wrap s.width (s.inOff + 1)).testBit 0
      rw [DecRegs.accept_data_ph, testBit_zero_wrap_succ hwidth, hph]
    | eom st =>
      rw [State.acceptOn_dec_eom] at hend
      exact absurd (hend.symm.trans (DecRegs.accept_eom_endP _ _)) (by decide)
  | emit he =>
    rcases State.emitOn_cases he with ⟨_, _, _, hp', -⟩ | ⟨on, x, d, -, hx, rfl⟩
    · cases hp'
    · rcases DecRegs.emit_cases hx with ⟨-, rfl, rfl⟩ | ⟨-, -, rfl, -⟩
      · cases on <;> exact h hsel hend
      · have hreset := (DecRegs.emit_end_reset hunits.decInv hx).2
        cases on <;> exact State.phaseInv_of_reset hreset rfl hsel hend

theorem State.PhaseInv.hostMove (h : s.PhaseInv) (ht : s.HostMove t) : t.PhaseInv := by
  cases ht
  exact h

/-- A write selects `RLE-D` only where the phase and the count are 0. -/
theorem State.PhaseInv.serveCfg (h : s.PhaseInv) (hinv : s.Inv) : s.serveCfg.PhaseInv := by
  rcases hbusy : s.busy with _ | _
  · obtain ⟨-, -, hidle, -⟩ := State.inv_iff.mp hinv
    obtain ⟨hoff, -, hdec⟩ := hidle hbusy
    rw [s.serveCfg_effect.1]
    exact State.phaseInv_of_reset hdec hoff
  · exact h.hostMove (State.serveCfg_of_busy hbusy)

end Moves

/-- What every step keeps, every run keeps. -/
theorem run_keeps {M : Host.Core} {P : M.State → Prop} (hstep : ∀ s t, P s → M.step s = .next t → P t) {n : Nat}
    {s t : M.State} (hs : P s) (h : M.run n s = .next t) : P t := by
  induction n generalizing t with
  | zero =>
    cases h
    exact hs
  | succ n ih =>
    obtain ⟨u, hu, ht⟩ := run_succ h
    exact hstep u t (ih hu) ht

end Sys2Proof.Machine

open Sys2Proof Sys2Proof.Machine

/-- Settles O15: the host's own moves change no register, the unit's and the port's keep every part of R41, and reset
establishes it for the width the unit has. -/
theorem stepKeepsInvariant : Obligations.StepKeepsInvariant := by
  intro s t hs h
  rcases step_cases h with hreset | ⟨u, hhost, hunit | rfl⟩
  · obtain ⟨x, hx⟩ := step_reset hreset
    cases hx.symm.trans h
    exact (invariantHoldsAtReset _ x hs.1.1).1
  · exact (hs.hostMove hhost).unitMove hunit
  · exact (hs.hostMove hhost).serveCfg

/-- Settles O16: the invariant holds at reset and every step keeps it, so every run does. -/
theorem reachableStatesMeetInvariant : Obligations.ReachableStatesMeetInvariant :=
  fun w h _ _ hw hrun => run_keeps (M := Sys2Proof.core) stepKeepsInvariant (invariantHoldsAtReset w h hw).1 hrun

/-- Settles O17, move by move as O15, whose invariant says that an idle unit has a phase and a count of 0. -/
theorem stepKeepsPhaseParity : Obligations.StepKeepsPhaseParity := by
  intro s t hinv hs h
  rcases step_cases h with hreset | ⟨u, hhost, hunit | rfl⟩
  · obtain ⟨x, hx⟩ := step_reset hreset
    cases hx.symm.trans h
    exact (invariantHoldsAtReset _ x hinv.1.1).2.1
  · exact (hs.hostMove hhost).unitMove (hinv.hostMove hhost) hunit
  · exact (hs.hostMove hhost).serveCfg (hinv.hostMove hhost)

/-- Settles O22: while `BUSY = 1` the port changes no register, and no other move touches `OP` or `SHIFT`. -/
theorem busyStepKeepsConfiguration : Obligations.BusyStepKeepsConfiguration := by
  intro s t hbusy h
  rcases step_cases h with hreset | ⟨u, hhost, hunit | rfl⟩
  · exact .inr hreset
  · obtain ⟨hop, hshift⟩ := hhost.config
    obtain ⟨-, hop', hshift', -⟩ := hunit.config
    exact .inl ⟨hop'.trans hop, hshift'.trans hshift⟩
  · obtain ⟨hop, hshift⟩ := hhost.config
    obtain ⟨hop', hshift'⟩ := (State.serveCfg_of_busy (hhost.busy_eq.trans hbusy)).config
    exact .inl ⟨hop'.trans hop, hshift'.trans hshift⟩

/-- Settles O47: such an instruction is an offer on `in` and a move of the unit. -/
theorem onlyAccessesTouchConfiguration : Obligations.OnlyAccessesTouchConfiguration := by
  intro i s t hwrite hread h
  rcases exec_cases h with ⟨-, hmove⟩ | ⟨c, hc, -, -⟩
  · exact hmove.config
  · cases i with
    | cfgWrite a v => exact absurd rfl (hwrite a v)
    | cfgRead a => exact absurd rfl (hread a)
    | _ => cases hc

/-- Settles O12: the fields by definition, the registers read by `cfgValue_reset`. -/
theorem resetStateIsAllZero : Obligations.ResetStateIsAllZero :=
  ⟨rfl, fun w h => ⟨rfl, State.cfgValue_reset w h⟩⟩
end

section
/-! PROOFS. A message offered to an idle unit completes within its bound (R162, R214): what is still to be accepted and emitted
counts the steps left, the unit never waits for a consumer that takes everything, and each of its moves lowers the count. -/

namespace Sys2Proof.Machine

/-! ### Something is enabled until the message is over -/

/-- The other half of R123: an encoder that does not accept has something to emit. -/
theorem EncRegs.emit_ne_none {e : EncRegs} (h : e.Inv) (hr : e.ready ≠ true) : e.emit ≠ none := by
  obtain ⟨-, -, hne3, -⟩ := h
  have hn : e.fsN = 2 ∨ e.fsN = 1 ∨ e.fsN = 0 := by bv_omega
  rcases hn with h2 | h1 | h0
  · simp [EncRegs.emit_value h2]
  · simp [EncRegs.emit_count h1]
  · have hp : e.endP = true := by simpa [EncRegs.ready_iff, h0] using hr
    simp [EncRegs.emit_end h0 hp]

/-- The other half of R142. -/
theorem DecRegs.emit_ne_none {d : DecRegs} (hr : d.ready ≠ true) : d.emit ≠ none := by
  by_cases h0 : d.rem = 0
  · have hp : d.endP = true := by simpa [DecRegs.ready_iff, h0] using hr
    simp [DecRegs.emit_end h0 hp]
  · simp [DecRegs.emit_repetition h0]

section Progress
variable {s t : State} {p : Path}

/-- With a ready consumer the unit accepts where it has nothing to emit. -/
theorem State.UnitsOn.inReady_of_emitOn_none (h : s.UnitsOn p) (hout : s.host.outReady = true)
    (he : s.emitOn p = none) (x : Sym) : s.inReady p x = true := by
  cases p with
  | cipher dir => exact hout
  | enc on =>
    by_contra hr
    obtain ⟨r, hr⟩ := Option.ne_none_iff_exists'.mp (EncRegs.emit_ne_none h.encInv hr)
    simp [State.emitOn, hr] at he
  | dec on =>
    by_contra hr
    obtain ⟨r, hr⟩ := Option.ne_none_iff_exists'.mp (DecRegs.emit_ne_none hr)
    simp [State.emitOn, hr] at he
  | sink =>
    cases x with
    | data b => rfl
    | eom st => exact hout

theorem State.unitStep_of_emitOn (he : s.emitOn p = some t) (hout : s.host.outReady = true) : s.unitStep p = t := by
  simp [State.unitStep, he, hout]

theorem State.unitStep_of_emitOn_none (he : s.emitOn p = none) : s.unitStep p = s.transferIn p := by
  simp [State.unitStep, he]

/-- The steps that the unit has left for the symbols offered, with a consumer that takes everything: one to accept each
symbol that waits, one to emit each symbol that is owed. A passed symbol is counted twice (R157). -/
def State.stepsLeft (s : State) (p : Path) : Nat :=
  s.host.inPend.length + (s.owed p s.host.inPend).length

theorem State.stepsLeft_emitOn_lt (he : s.emitOn p = some t) : t.stepsLeft p < s.stepsLeft p := by
  obtain ⟨x, -, hhost⟩ := State.emitOn_out he
  obtain ⟨new, hout, howed⟩ := State.emitOn_pays he s.host.inPend
  have hnew : new = [x] := by simpa [hhost] using hout.symm
  have hin : t.host.inPend = s.host.inPend := by rw [hhost]
  rw [State.stepsLeft, State.stepsLeft, howed, hin, hnew]
  simp

theorem State.stepsLeft_acceptOn_lt {x : Sym} {rest : List Sym} (hin : s.host.inPend = x :: rest)
    (hr : s.inReady p x = true) :
    (State.acceptOn { s with host := { s.host with inPend := rest } } p x).stepsLeft p < s.stepsLeft p := by
  obtain ⟨-, -, -, out, hhost⟩ := State.acceptOn_frame { s with host := { s.host with inPend := rest } } p x
  obtain ⟨new, -, howed⟩ := State.acceptOn_pays (s := { s with host := { s.host with inPend := rest } }) hr rest
  have hlen := congrArg List.length howed
  change (s.owed p (x :: rest)).length = _ at hlen
  rw [List.length_append] at hlen
  rw [State.stepsLeft, State.stepsLeft, hhost, hin, hlen, List.length_cons]
  dsimp only
  omega

/-- While a symbol waits or an end is held, the unit's turn is a move. -/
theorem State.UnitsOn.stepsLeft_unitStep_lt (h : s.UnitsOn p) (hout : s.host.outReady = true)
    (hmore : s.ended = true ∨ s.host.inPend ≠ []) : (s.unitStep p).stepsLeft p < s.stepsLeft p := by
  rcases he : s.emitOn p with _ | t
  · have hready := h.inReady_of_emitOn_none hout he
    have hopen : s.ended ≠ true := by simp [h.ended_of_ready (hready (.eom 0))]
    obtain ⟨x, rest, hin⟩ := List.exists_cons_of_ne_nil (hmore.resolve_left hopen)
    rw [State.unitStep_of_emitOn_none he, State.transferIn_cons hin, if_pos (hready x)]
    exact State.stepsLeft_acceptOn_lt hin (hready x)
  · rw [State.unitStep_of_emitOn he hout]
    exact State.stepsLeft_emitOn_lt he

end Progress

/-! ### A host that only receives -/

/-- The host has nothing to do but to take what comes out: no action, no access and no turn is left, and it is ready. -/
structure HostSide.OnlyReceives (h : HostSide) : Prop where
  script : h.script = []
  cfgPend : h.cfgPend = []
  sched : h.sched = []
  outReady : h.outReady = true

/-- By the default order every turn is then the unit's (log 2). -/
theorem step_of_onlyReceives {s : State} (h : s.host.OnlyReceives) : step s = .next (s.unitStep (pathOf s.op)) := by
  have hturn : s.nextTurn.1 = .unit := by
    rw [State.nextTurn_of_nil h.sched]
    simp [State.defaultTurn, State.portEnabled, h.cfgPend, h.script]
  have hpop : s.popTurn = s := by
    rw [State.popTurn, h.sched, List.tail_nil, ← h.sched]
  rw [step_unit hturn, hpop, exec_decodeOp]

theorem HostSide.OnlyReceives.unitStep {s : State} (h : s.host.OnlyReceives) (p : Path) :
    (s.unitStep p).host.OnlyReceives := by
  obtain ⟨-, -, -, hhost⟩ := (s.unitStep_move p).config
  rw [hhost]
  exact ⟨h.script, h.cfgPend, h.sched, h.outReady⟩

theorem State.stream_of_script_nil {s : State} (h : s.host.script = []) : s.stream = s.host.inPend := by
  simp [State.stream, h]

theorem run_succ_of_step {M : Host.Core} {s u : M.State} (h : M.step s = .next u) (n : Nat) :
    M.run (n + 1) s = M.run n u := by
  rw [Host.Core.run, h]

/-- A state in which nothing moves ends every run. -/
theorem run_of_step_self {M : Host.Core} {s : M.State} (h : M.step s = .next s) (n : Nat) : M.run n s = .next s := by
  induction n with
  | zero => rfl
  | succ n ih => rw [run_succ_of_step h, ih]

namespace Message

variable {m : Message} {u : State}

/-- A message that is not past is still to be taken or in flight: the unit's turn is a move. -/
theorem Phase.past_or_unfinished (hm : m.Starts) (h : m.Phase u) (hconfig : m.Config u) :
    m.Past u ∨ (m.start.NotPastMessage u ∧ u.UnitsOn m.path ∧ (u.ended = true ∨ u.stream ≠ [])) := by
  cases h with
  | before hbefore =>
    obtain ⟨-, -, henc, hdec⟩ := hbefore.idle
    refine .inr ⟨.inr ⟨hbefore.stream, hconfig.2⟩, State.unitsOn_of_reset henc hdec, .inr ?_⟩
    rw [hbefore.stream, hm.2]
    simp [syms]
  | during hopen hstream hbusy =>
    refine .inr ⟨.inl hbusy, hopen.units, ?_⟩
    rcases hopen.split with ⟨-, r, -, rfl⟩ | ⟨hended, -, -⟩
    · exact .inr (by simp [hstream])
    · exact .inl hended
  | past hpast => exact .inl hpast

/-- With nothing behind the message the unit has nothing to do after it. -/
theorem Past.step_self (h : m.Past u) (hlast : m.behind = []) (hhost : u.host.OnlyReceives) : step u = .next u := by
  obtain ⟨-, -, henc, hdec⟩ := h.idle
  have hin : u.host.inPend = [] := (State.stream_of_script_nil hhost.script).symm.trans (h.stream.trans hlast)
  rw [step_of_onlyReceives hhost, State.unitStep_of_emitOn_none (State.emitOn_of_reset henc hdec _),
    State.transferIn_nil hin]

theorem Config.step_eq (h : m.Config u) (hhost : u.host.OnlyReceives) :
    Machine.step u = .next (u.unitStep m.path) := by
  rw [step_of_onlyReceives hhost, h.2.1, path]

/-- One turn brings an unfinished message closer to its end, under the configuration it started with. -/
theorem Phase.unitStep (hm : m.Starts) (h : m.Phase u) (hconfig : m.Config u) (hhost : u.host.OnlyReceives)
    (hpast : ¬ m.Past u) :
    m.Phase (u.unitStep m.path) ∧ m.Config (u.unitStep m.path) ∧
      (u.unitStep m.path).stepsLeft m.path < u.stepsLeft m.path := by
  obtain ⟨hnotPast, hunits, hmore⟩ := (h.past_or_unfinished hm hconfig).resolve_left hpast
  obtain ⟨hwidth, hop, hshift, -⟩ := (u.unitStep_move m.path).config
  rw [State.stream_of_script_nil hhost.script] at hmore
  have hreset : ¬ u.ResetIsNext := fun hr => by simp [State.ResetIsNext, hhost.script] at hr
  exact ⟨h.step hm hreset hnotPast (hconfig.step_eq hhost),
    ⟨hwidth.trans hconfig.1, hop.trans hconfig.2.1, hshift.trans hconfig.2.2⟩,
    hunits.stepsLeft_unitStep_lt hhost.outReady hmore⟩

/-- R214: as many turns as the unit has steps left complete the message; the host's ports but for `in` and `out` stay. -/
theorem Phase.completes (hm : m.Starts) (hlast : m.behind = []) (h : m.Phase u) (hconfig : m.Config u)
    (hhost : u.host.OnlyReceives) {n : Nat} (hn : u.stepsLeft m.path ≤ n) :
    ∃ t, Sys2Proof.core.run n u = .next t ∧ m.Past t ∧
      t.host = { u.host with inPend := [], out := t.host.out } := by
  induction n using Nat.strong_induction_on generalizing u with
  | _ n ih =>
    by_cases hpast : m.Past u
    · have hin : u.host.inPend = [] := (State.stream_of_script_nil hhost.script).symm.trans (hpast.stream.trans hlast)
      exact ⟨u, run_of_step_self (M := Sys2Proof.core) (hpast.step_self hlast hhost) n, hpast, by rw [← hin]⟩
    · obtain ⟨hphase, hconfig', hlt⟩ := h.unitStep hm hconfig hhost hpast
      obtain ⟨k, rfl⟩ : ∃ k, n = k + 1 := ⟨n - 1, by omega⟩
      obtain ⟨t, hrun, htpast, hthost⟩ := ih k k.lt_succ_self hphase hconfig' (hhost.unitStep _) (by omega)
      obtain ⟨-, -, -, hport⟩ := (u.unitStep_move m.path).config
      refine ⟨t, (run_succ_of_step (M := Sys2Proof.core) (hconfig.step_eq hhost) k).trans hrun, htpast, ?_⟩
      rw [hthost, hport]

/-- A message that is past has left the idle state that it started from, but for the record and the host's side. -/
theorem Past.eq_start (hm : m.Starts) (h : m.Past u) :
    u = { m.start with
      done := true
      lastStatus := emittedStatus m.start.op m.bytes
      errOffset := if emittedStatus m.start.op m.bytes = statusMalformed then wrap m.start.width (m.bytes.length - 1) else 0
      host := u.host } := by
  obtain ⟨⟨hsbusy, hsoff, hsenc, hsdec⟩, -⟩ := hm
  obtain ⟨hwidth, hop, hshift⟩ := h.config
  obtain ⟨hbusy, hoff, henc, hdec⟩ := h.idle
  dsimp only
  rw [← h.errOffset, ← h.lastStatus, ← h.done, ← hwidth, ← hop, ← hshift, ← hbusy.trans hsbusy.symm, ← hoff.trans hsoff.symm,
    ← henc.trans hsenc.symm, ← hdec.trans hsdec.symm]

end Message
end Sys2Proof.Machine

open Sys2Proof Sys2Proof.Machine

/-- Settles O58: an idle unit has one step left for each symbol of the message and one for each symbol it owes, which is the
bound. -/
theorem messageCompletesWithinBound : Obligations.MessageCompletesWithinBound := by
  intro s l st hidle hin hcfg hscript hsched hout
  obtain ⟨-, -, henc, hdec⟩ := id hidle
  have hstream : s.stream = l.map .data ++ [.eom st] := (State.stream_of_script_nil hscript).trans hin
  have hm : Message.Starts ⟨s, l, st, []⟩ := ⟨hidle, hstream.trans (List.append_nil _).symm⟩
  have hleft : s.stepsLeft (pathOf s.op) = l.length + (emittedBytes s.op s.k l).length + 2 := by
    rw [State.stepsLeft, hin, State.owed_message henc hdec]
    simp only [emittedSyms, List.length_append, List.length_map, List.length_singleton]
    omega
  obtain ⟨t, hrun, hpast, hhost⟩ := Message.Phase.completes hm rfl (.before ⟨hidle, rfl, rfl, rfl⟩) ⟨rfl, rfl, rfl⟩
    ⟨hscript, hcfg, hsched, hout⟩ hleft.le
  refine hrun.trans (congrArg _ ((hpast.eq_start hm).trans ?_))
  rw [hhost, hpast.out]
  rfl
end

section
/-! PROOFS. What the links make wait (R52, R53, R65, R193): a unit that can neither accept nor emit stays as it is, so a symbol
on `in` waits until the unit takes it, and one on `out` until the consumer does. -/

namespace Sys2Proof.Machine

section Waiting
variable {s t : State} {p : Path}

/-! ### When a unit accepts -/

theorem EncRegs.ready_eq_false_iff {e : EncRegs} : e.ready = false ↔ e.fsN ≠ 0 ∨ e.endP = true := by
  rw [← Bool.not_eq_true, EncRegs.ready_iff, not_and_or, Bool.not_eq_false]

theorem DecRegs.ready_eq_false_iff {d : DecRegs} : d.ready = false ↔ d.rem ≠ 0 ∨ d.endP = true := by
  rw [← Bool.not_eq_true, DecRegs.ready_iff, not_and_or, Bool.not_eq_false]

/-- The operations, grouped by the unit on their path (R72, R150). -/
theorem opcode_cases (op : BitVec 3) :
    (op = 0 ∨ op = 1) ∨ (op = 2 ∨ op = 4) ∨ (op = 3 ∨ op = 5) ∨ (op = 6 ∨ op = 7) := by
  bv_omega

/-- The accept guard of the operation in `CTRL` is `in_ready` on the path it selects (R163). -/
theorem State.inReady_pathOf_iff (s : State) (x : Sym) : s.inReady (pathOf s.op) x = true ↔ s.AcceptGuard x := by
  rw [State.AcceptGuard]
  rcases opcode_cases s.op with (h | h) | (h | h) | (h | h) | (h | h)
  case inl.inl | inl.inr => simp [h, pathOf, State.inReady]
  case inr.inl.inl | inr.inl.inr => simp [h, pathOf, State.inReady, EncRegs.ready_iff]
  case inr.inr.inl.inl | inr.inr.inl.inr => simp [h, pathOf, State.inReady, DecRegs.ready_iff]
  case inr.inr.inr.inl | inr.inr.inr.inr => cases x <;> simp [h, pathOf, State.inReady]

/-- Accept and emit exclude each other on every path (R123, R142). -/
theorem State.emitOn_of_inReady {x : Sym} (hr : s.inReady p x = true) : s.emitOn p = none := by
  cases p with
  | cipher dir => rfl
  | enc on => simp [State.emitOn, EncRegs.emit_of_ready hr]
  | dec on => simp [State.emitOn, DecRegs.emit_of_ready hr]
  | sink => rfl

/-! ### The unit's turn with nothing enabled -/

/-- A unit that accepts nothing, before a consumer that takes nothing, does not move (R65). -/
theorem State.UnitMove.eq_of_stalled (ht : s.UnitMove p t) (hr : ∀ x, s.inReady p x ≠ true)
    (hout : s.host.outReady = false) : t = s := by
  cases ht with
  | wait => rfl
  | accept _ hready => exact absurd hready (hr _)
  | emit _ hready => exact absurd (hready.symm.trans hout) (by decide)

/-- A unit waits for the consumer where it accepts nothing, and for the producer where it would accept anything (R65, R193). -/
theorem State.unitStep_of_waits {ready : Bool} (hready : ∀ x, s.inReady p x = ready)
    (h : ready = false ∧ s.host.outReady = false ∨ ready = true ∧ s.host.inPend = []) : s.unitStep p = s := by
  obtain ⟨rfl, hout⟩ | ⟨rfl, hin⟩ := h
  · exact (s.unitStep_move p).eq_of_stalled (fun x => by simp [hready x]) hout
  · rw [State.unitStep_of_emitOn_none (State.emitOn_of_inReady (hready (.eom 0))), State.transferIn_nil hin]

theorem State.unitStep_of_not_enabled (h : s.unitEnabled = false) : s.unitStep (pathOf s.op) = s := by
  rcases s.unitStep_cases (pathOf s.op) with ⟨u, he, hout, -⟩ | ⟨x, rest, he, hin, hr, -⟩ | hu
  · simp [State.unitEnabled, he, hout] at h
  · simp [State.unitEnabled, he, hin, hr] at h
  · exact hu

theorem State.popTurn_of_nil (h : s.host.sched = []) : s.popTurn = s := by
  rw [State.popTurn, h, List.tail_nil, ← h]

/-! ### The paths with a sequential unit -/

/-- The path runs through `RLE-E` or `RLE-D`, which holds the symbol on `out` in its registers. -/
def Path.Sequential (p : Path) : Prop :=
  (∃ on, p = .enc on) ∨ ∃ on, p = .dec on

theorem pathOf_sequential_iff (op : BitVec 3) : (pathOf op).Sequential ↔ op = 2 ∨ op = 3 ∨ op = 4 ∨ op = 5 := by
  rw [Path.Sequential, pathOf_enc_iff, pathOf_dec_iff]
  tauto

/-- No move of the host changes what such a unit shows on `out`. -/
theorem Path.Sequential.outSym_withHost (hp : p.Sequential) (s : State) (h : HostSide) :
    State.outSym { s with host := h } p = s.outSym p := by
  obtain ⟨on, rfl⟩ | ⟨on, rfl⟩ := hp <;> rfl

/-- What such a unit shows on `out` is what it would emit. -/
theorem Path.Sequential.emitOn_ne_none (hp : p.Sequential) {x : Sym} (hx : s.outSym p = some x) : s.emitOn p ≠ none := by
  obtain ⟨on, rfl⟩ | ⟨on, rfl⟩ := hp
  · obtain ⟨r, hr, -⟩ := Option.map_eq_some_iff.mp hx
    simp [State.emitOn, hr]
  · obtain ⟨r, hr, -⟩ := Option.map_eq_some_iff.mp hx
    simp [State.emitOn, hr]

/-- A message is in flight while a sequential unit holds a symbol (R41 (h)). -/
theorem State.Inv.busy_of_emitOn (h : s.Inv) (he : s.emitOn p ≠ none) : s.busy = true := by
  obtain ⟨-, -, hidle, -⟩ := State.inv_iff.mp h
  by_contra hbusy
  obtain ⟨-, henc, hdec⟩ := hidle (Bool.eq_false_of_not_eq_true hbusy)
  exact he (State.emitOn_of_reset henc hdec p)

/-! ### A step while the consumer does not take -/

/-- `step_cases` with the level of `out_ready` under which the unit moves: the action that sets it moves only the host
(log 17). -/
theorem step_cases_outReady (h : step s = .next t) :
    s.ResetIsNext ∨ s.HostMove t ∨
      ∃ u, s.HostMove u ∧ u.host.outReady = s.host.outReady ∧ (u.UnitMove (pathOf u.op) t ∨ t = u.serveCfg) := by
  have hpop : s.HostMove s.popTurn := .move _ rfl rfl
  rcases hturn : s.nextTurn.1 with _ | _ | _
  case unit =>
    rw [step_unit hturn, exec_decodeOp] at h
    cases h
    exact .inr (.inr ⟨_, hpop, rfl, .inl (State.unitStep_move _ _)⟩)
  case port =>
    rw [step_port hturn] at h
    cases h
    exact .inr (.inr ⟨_, hpop, rfl, .inr rfl⟩)
  case host =>
    rcases hs : s.host.script with _ | ⟨w | _ | b, rest⟩
    case nil =>
      rw [step_host_nil hturn hs] at h
      cases h
      exact .inr (.inl hpop)
    case cons.word =>
      rw [step_host_word hturn hs] at h
      rcases exec_cases h with ⟨-, hmove⟩ | ⟨c, -, hoff, rfl⟩
      · rw [pathUnder_hostWord] at hmove
        refine .inr (.inr ⟨_, ?_, ?_, .inl hmove⟩)
        · exact .move _ (by simp [State.stream, hs, HostAction.symbols]) rfl
        · rfl
      · refine .inr (.inr ⟨_, ?_, ?_, .inr rfl⟩)
        · exact .move _ (by simp [State.stream, hs, HostAction.symbols, hoff]) rfl
        · rfl
    case cons.reset => exact .inl ⟨hturn, by rw [hs]; rfl⟩
    case cons.ready =>
      rw [step_host_ready hturn hs] at h
      cases h
      exact .inr (.inl (.move _ (by simp [State.stream, hs, HostAction.symbols]) rfl))

theorem State.HostMove.trans {u : State} (h : s.HostMove u) (h' : u.HostMove t) : s.HostMove t := by
  cases h with
  | move _ hstream hout =>
    cases h' with
    | move host hstream' hout' => exact .move host (hstream'.trans hstream) (hout'.trans hout)

/-- While a sequential unit holds a symbol that the consumer does not take, only the host moves: the unit is stalled, and
`BUSY` keeps the port from every register. -/
theorem Path.Sequential.hostMove_of_stalled (hp : (pathOf s.op).Sequential) (hinv : s.Inv)
    (hout : s.host.outReady = false) {x : Sym} (hx : s.outSym (pathOf s.op) = some x) (hreset : ¬ s.ResetIsNext)
    (h : step s = .next t) : s.HostMove t := by
  rcases step_cases_outReady h with hr | hmove | ⟨u, hhost, hout', hunit | rfl⟩
  · exact absurd hr hreset
  · exact hmove
  · have hstalled : ∀ y, u.inReady (pathOf u.op) y ≠ true := fun y hr => by
      cases hhost with
      | move host => exact hp.emitOn_ne_none ((hp.outSym_withHost s host).trans hx) (State.emitOn_of_inReady hr)
    exact hunit.eq_of_stalled hstalled (hout'.trans hout) ▸ hhost
  · have hbusy : s.busy = true := hinv.busy_of_emitOn (hp.emitOn_ne_none hx)
    exact hhost.trans (State.serveCfg_of_busy (hhost.busy_eq.trans hbusy))

end Waiting

end Sys2Proof.Machine

open Sys2Proof Sys2Proof.Machine

/-- Settles O26: only the host moves, and the symbol on `out` stands in the registers of the sequential unit. -/
theorem waitingOutputSymbolIsHeld : Obligations.WaitingOutputSymbolIsHeld := by
  intro s t x hinv hop hout hx hreset h
  have hp : (pathOf s.op).Sequential := (pathOf_sequential_iff s.op).mpr hop
  cases hp.hostMove_of_stalled hinv hout hx hreset h with
  | move host _ hkept => exact ⟨rfl, (hp.outSym_withHost s host).trans hx, hkept⟩

/-- Settles O8: the equations of the host's turn, a port's turn that can perform nothing, and a default turn of a unit that
is not enabled. -/
theorem stepOfOtherTurns : Obligations.StepOfOtherTurns := by
  refine fun s => ⟨fun b rest hturn hs => ?_, fun hturn hs => ?_, fun hturn hheld => ?_, fun hnil hs hcfg hunit => ?_⟩
  · exact step_host_ready (State.nextTurn_of_head hturn) hs
  · exact step_host_nil (State.nextTurn_of_head hturn) hs
  · have hserve : s.popTurn.serveCfg = s.popTurn := by
      rcases hheld with hcfg | ⟨a, v, rest, hcfg, hbusy⟩
      · exact State.serveCfg_nil hcfg
      · rw [State.serveCfg_cons (s := s.popTurn) hcfg]
        simp [State.cfgReady, State.popTurn, hbusy]
    rw [step_port (State.nextTurn_of_head hturn), hserve]
    rfl
  · have hturn : s.nextTurn.1 = .unit := by
      rw [State.nextTurn_of_nil hnil]
      simp [State.defaultTurn, State.portEnabled, hcfg, hunit, hs]
    rw [step_unit hturn, State.popTurn_of_nil hnil, exec_decodeOp, State.unitStep_of_not_enabled hunit]

/-- Settles O40: whether either unit accepts does not depend on the symbol, so each waits on both its paths. -/
theorem sequentialOperationsWait : Obligations.SequentialOperationsWait := by
  refine fun s => ⟨fun i hi hwait => ?_, fun i hi hwait => ?_⟩
  · rw [← EncRegs.ready_eq_false_iff, ← and_assoc, ← EncRegs.ready_iff] at hwait
    have hstep : ∀ on, s.unitStep (.enc on) = s := fun on => State.unitStep_of_waits (fun _ => rfl) hwait
    rcases hi with rfl | rfl <;> exact congrArg _ (hstep _)
  · rw [← DecRegs.ready_eq_false_iff, ← and_assoc, ← DecRegs.ready_iff] at hwait
    have hstep : ∀ on, s.unitStep (.dec on) = s := fun on => State.unitStep_of_waits (fun _ => rfl) hwait
    rcases hi with rfl | rfl <;> exact congrArg _ (hstep _)

/-- Settles O44: the symbols are offered, and the transfer finds the oldest one not accepted. -/
theorem offeredSymbolsWaitTheirTurn : Obligations.OfferedSymbolsWaitTheirTurn := by
  intro s y i hi hhead hguard
  have hoff : offered i ≠ [] := by
    rcases hi with ⟨_, rfl⟩ | ⟨_, rfl⟩ | ⟨_, _, rfl⟩ <;> exact List.cons_ne_nil _ _
  obtain ⟨rest, hin⟩ := List.head?_eq_some_iff.mp hhead
  have hready : (s.offerIn (offered i)).inReady (pathOf s.op) y ≠ true := fun hr =>
    hguard ((State.inReady_pathOf_iff (s.offerIn (offered i)) y).mp hr)
  rw [exec_drive hoff, State.drive, State.transferIn_cons (s := s.offerIn (offered i)) hin, if_neg hready]
  rfl
end

section
/-! PROOFS. The encodings (R70 to R74, R83, R84): the bits of a port and the number they are say the same thing, each
instruction has its bits on a port, and `decode` and `encode` are read through these two. -/

namespace Sys2Proof

/-! ### Bits on a port and the number they are -/

/-- The number that the bits in a place are, on a unit of width `w` (R71 to R74). -/
def PortWord.toRaw (w : Nat) : PortWord → RawWord
  | .op b => ⟨.op, b.toNat⟩
  | .host (.sym b) => ⟨.sym, b.toNat⟩
  | .host (.frame b) => ⟨.frame, b.toNat⟩
  | .host (.cfg c v) => ⟨.cfg, c.toNat * 2 ^ w + v⟩

/-- The bits fit a unit of width `w`: the data of an access is a word of `w` bits (R74). -/
def PortWord.Fits (w : Nat) : PortWord → Prop
  | .host (.cfg _ v) => v < 2 ^ w
  | .op _ | .host (.sym _) | .host (.frame _) => True

section PortWord
variable {w : Nat} {p : PortWord} {r : RawWord}

theorem PortWord.toRaw_wellFormed (h : p.Fits w) : (p.toRaw w).wellFormed w = true := by
  apply decide_eq_true
  match p, h with
  | .op b, _ | .host (.sym b), _ | .host (.frame b), _ => exact b.isLt
  | .host (.cfg c v), hv => exact Laws.EncodedFits.cfg_lt w v c hv

/-- Of an access, the quotient by `2 ^ w` is the control bits and the remainder the data. -/
theorem PortWord.toPort_toRaw (h : p.Fits w) : (p.toRaw w).toPort w = p := by
  match p, h with
  | .op b, _ | .host (.sym b), _ | .host (.frame b), _ => simp [PortWord.toRaw, RawWord.toPort]
  | .host (.cfg c v), (hv : v < 2 ^ w) =>
    obtain ⟨hctl, hdata⟩ : (c.toNat * 2 ^ w + v) / 2 ^ w = c.toNat ∧ (c.toNat * 2 ^ w + v) % 2 ^ w = v :=
      (Nat.div_mod_unique (Nat.two_pow_pos w)).mpr ⟨by rw [Nat.add_comm, Nat.mul_comm], hv⟩
    simp [PortWord.toRaw, RawWord.toPort, wrap, hctl, hdata]

theorem RawWord.toPort_fits (w : Nat) (r : RawWord) : (r.toPort w).Fits w := by
  obtain ⟨_ | _ | _ | _, n⟩ := r
  case op | sym | frame => trivial
  case cfg => exact Nat.mod_lt n (Nat.two_pow_pos w)

theorem RawWord.toRaw_toPort (h : r.wellFormed w = true) : (r.toPort w).toRaw w = r := by
  obtain ⟨fmt, n⟩ := r
  have hlt : n < 2 ^ fmt.width w := of_decide_eq_true h
  cases fmt
  case op | sym | frame => exact congrArg _ (Nat.mod_eq_of_lt hlt)
  case cfg =>
    have hctl : n / 2 ^ w < 2 ^ 4 := Nat.div_lt_of_lt_mul (by rwa [Nat.mul_comm, ← Nat.pow_add])
    refine congrArg (RawWord.mk .cfg) ?_
    rw [BitVec.toNat_ofNat, Nat.mod_eq_of_lt hctl]
    exact Nat.div_add_mod' n (2 ^ w)

end PortWord

/-! ### The decoder -/

section Decoder
variable {w : Nat} {p : PortWord} {r : RawWord} {i : Instr}

theorem decode_of_wellFormed (h : r.wellFormed w = true) : decode w r = .ok (decodePort (r.toPort w)) :=
  if_pos h

theorem decode_of_not_wellFormed (h : ¬ r.wellFormed w = true) : decode w r = .error (DecodeError.of r.fmt) :=
  if_neg h

/-- The bits on a port decode as the number they are. -/
theorem decode_toRaw (h : p.Fits w) : decode w (p.toRaw w) = .ok (decodePort p) := by
  rw [decode_of_wellFormed (PortWord.toRaw_wellFormed h), PortWord.toPort_toRaw h]

/-- A number that decodes is the number of the bits that it decodes as. -/
theorem decode_eq_ok (h : decode w r = .ok i) : ∃ p : PortWord, p.Fits w ∧ r = p.toRaw w ∧ i = decodePort p := by
  by_cases hwf : r.wellFormed w = true
  · rw [decode_of_wellFormed hwf] at h
    cases h
    exact ⟨r.toPort w, r.toPort_fits w, (RawWord.toRaw_toPort hwf).symm, rfl⟩
  · rw [decode_of_not_wellFormed hwf] at h
    cases h

end Decoder

/-! ### The bits of an instruction -/

/-- The bits that an instruction is, in the place where it stands (R71 to R74, R84). -/
def Instr.toPort : Instr → PortWord
  | .cenc => .op 0
  | .cdec => .op 1
  | .rlec => .op 2
  | .rled => .op 3
  | .mixe => .op 4
  | .mixd => .op 5
  | .rsv6 => .op 6
  | .rsv7 => .op 7
  | .data d => .host (.sym (bitsOfSym (.data d)))
  | .endSym s => .host (.sym (bitsOfSym (.eom s)))
  | .rep v n => .host (.frame (v ++ n))
  | .cfgWrite a v => .host (.cfg (cfgCtl true a) v)
  | .cfgRead a => .host (.cfg (cfgCtl false a) 0)

section Bits

/-- The bit that stands above the others. -/
theorem getLsbD_ofBool_append {n : Nat} (k : Bool) (x : BitVec n) : (BitVec.ofBool k ++ x).getLsbD n = k := by
  rw [BitVec.getLsbD_append, if_neg (lt_irrefl n), Nat.sub_self]
  cases k <;> rfl

theorem extractLsb'_one {n : Nat} (b : BitVec n) (i : Nat) : b.extractLsb' i 1 = BitVec.ofBool (b.getLsbD i) := by
  apply BitVec.eq_of_toNat_eq
  rw [BitVec.extractLsb'_toNat, BitVec.toNat_ofBool, BitVec.getLsbD, Nat.toNat_testBit, Nat.shiftRight_eq_div_pow]

theorem ofBool_append_extractLsb' {n : Nat} (b : BitVec (1 + n)) :
    BitVec.ofBool (b.getLsbD n) ++ b.extractLsb' 0 n = b := by
  rw [← extractLsb'_one, BitVec.extractLsb'_append_extractLsb']

theorem toNat_append_eq_add {m n : Nat} (x : BitVec m) (y : BitVec n) :
    (x ++ y).toNat = x.toNat * 2 ^ n + y.toNat := by
  rw [BitVec.toNat_append, ← Nat.shiftLeft_add_eq_or_of_lt y.isLt, Nat.shiftLeft_eq]

/-- R71: a symbol is its kind bit and its byte. -/
theorem symOfBits_ofBool_append (k : Bool) (x : Byte) :
    symOfBits (BitVec.ofBool k ++ x) = if k then .eom x else .data x := by
  have hkind : (BitVec.ofBool k ++ x).getLsbD 8 = k := getLsbD_ofBool_append k x
  have hbyte : (BitVec.ofBool k ++ x).extractLsb' 0 8 = x := BitVec.extractLsb'_append_eq_right
  rw [symOfBits, hkind, hbyte]

theorem symOfBits_bitsOfSym (t : Sym) : symOfBits (bitsOfSym t) = t := by
  cases t with
  | data d => exact symOfBits_ofBool_append false d
  | eom s => exact symOfBits_ofBool_append true s

theorem bitsOfSym_symOfBits (b : BitVec 9) : bitsOfSym (symOfBits b) = b := by
  have hb : BitVec.ofBool (b.getLsbD 8) ++ b.extractLsb' 0 8 = b := ofBool_append_extractLsb' (n := 8) b
  rw [← hb, symOfBits_ofBool_append]
  cases b.getLsbD 8 <;> rfl

/-- R74: the control bits of an access are `cfg_we` and `cfg_addr`. -/
theorem decodeCfg_cfgCtl (we : Bool) (a : CfgIndex) (v : Word) :
    decodeCfg (cfgCtl we a) v = if we then .cfgWrite a v else .cfgRead a := by
  have hwe : (cfgCtl we a).getLsbD 3 = we := getLsbD_ofBool_append we a
  have haddr : (cfgCtl we a).extractLsb' 0 3 = a := BitVec.extractLsb'_append_eq_right
  rw [decodeCfg, hwe, haddr]

theorem exists_cfgCtl (c : BitVec 4) : ∃ we a, c = cfgCtl we a :=
  ⟨_, _, (ofBool_append_extractLsb' (n := 3) c).symm⟩

theorem decodePort_toPort (i : Instr) : decodePort i.toPort = i := by
  cases i with
  | cenc | cdec | rlec | rled | mixe | mixd | rsv6 | rsv7 => rfl
  | data | endSym =>
    simp only [Instr.toPort, decodePort, decodeHostWord, decodeSym, symOfBits_bitsOfSym]
  | rep v n =>
    exact congrArg₂ Instr.rep BitVec.extractLsb'_append_eq_left BitVec.extractLsb'_append_eq_right
  | cfgWrite a v => exact decodeCfg_cfgCtl true a v
  | cfgRead a => exact decodeCfg_cfgCtl false a 0

/-- The bits on a port are those of the instruction they decode as, but for the data bits of a read, which R74 ignores. -/
theorem toPort_decodePort (p : PortWord) :
    (decodePort p).toPort = p ∨
      ∃ a v, p = .host (.cfg (cfgCtl false a) v) ∧ decodePort p = .cfgRead a := by
  match p with
  | .op b => exact .inl (by fin_cases b <;> rfl)
  | .host (.sym b) =>
    left
    conv_rhs => rw [← bitsOfSym_symOfBits b]
    simp only [decodePort, decodeHostWord, decodeSym]
    cases symOfBits b <;> rfl
  | .host (.frame b) =>
    have hb : b.extractLsb' 8 8 ++ b.extractLsb' 0 8 = b :=
      BitVec.extractLsb'_append_extractLsb' (w := 8) (len := 8) (x := b)
    exact .inl (congrArg (fun x => PortWord.host (.frame x)) hb)
  | .host (.cfg c v) =>
    obtain ⟨we, a, rfl⟩ := exists_cfgCtl c
    have hi : decodePort (.host (.cfg (cfgCtl we a) v)) = if we then .cfgWrite a v else .cfgRead a :=
      decodeCfg_cfgCtl we a v
    cases we with
    | false => exact .inr ⟨a, v, rfl, hi⟩
    | true => exact .inl (congrArg Instr.toPort hi)

/-- `encode` gives the number of the instruction's bits. -/
theorem encode_eq_toRaw (w : Nat) (i : Instr) : encode w i = i.toPort.toRaw w := by
  cases i with
  | cenc | cdec | rlec | rled | mixe | mixd | rsv6 | rsv7 | cfgWrite | cfgRead => rfl
  | data d =>
    have hd : (bitsOfSym (.data d)).toNat = 0 * 2 ^ 8 + d.toNat := toNat_append_eq_add 0#1 d
    exact congrArg (RawWord.mk .sym) (by rw [hd, Nat.zero_mul, Nat.zero_add])
  | endSym s => exact congrArg (RawWord.mk .sym) (toNat_append_eq_add 1#1 s).symm
  | rep v n => exact congrArg (RawWord.mk .frame) (toNat_append_eq_add v n).symm

theorem Instr.toPort_fits_iff {w : Nat} {i : Instr} : i.toPort.Fits w ↔ i.wellFormed w = true := by
  cases i with
  | cfgWrite a v => exact (decide_eq_true_iff (p := v < 2 ^ w)).symm
  | cfgRead a => exact iff_of_true (Nat.two_pow_pos w) rfl
  | cenc | cdec | rlec | rled | mixe | mixd | rsv6 | rsv7 | data | endSym | rep => exact iff_of_true trivial rfl

/-- R83: bits that fit a unit are an instruction that the unit has. -/
theorem decodePort_wellFormed {w : Nat} {p : PortWord} (h : p.Fits w) : (decodePort p).wellFormed w = true := by
  rcases toPort_decodePort p with hp | ⟨a, v, -, hi⟩
  · exact Instr.toPort_fits_iff.mp (hp.symm ▸ h)
  · rw [hi]
    rfl

end Bits

end Sys2Proof

open Sys2Proof Sys2Proof.Machine

/-- Settles O2: the encoding of an instruction is the number of its bits, and those decode as the instruction. -/
theorem decodeOfEncodeIsIdentity : Obligations.DecodeOfEncodeIsIdentity := by
  intro w i hi
  rw [encode_eq_toRaw, decode_toRaw (Instr.toPort_fits_iff.mpr hi), decodePort_toPort]

/-- Settles O3: a number that fits is the number of bits on a port, all of which decode. -/
theorem decodeRejectsExactlyTooWideWords : Obligations.DecodeRejectsExactlyTooWideWords := by
  refine fun w r => ⟨fun hfits => ?_, fun hwide => ?_⟩
  · exact ⟨_, decode_of_wellFormed (decide_eq_true hfits), decodePort_wellFormed (r.toPort_fits w)⟩
  · exact decode_of_not_wellFormed fun hwf => hwide.not_gt (of_decide_eq_true hwf)

/-- Settles O4: the decoded word is the number of bits on a port, which are the instruction's own unless it is a read. -/
theorem encodeOfDecodeGivesWordBack : Obligations.EncodeOfDecodeGivesWordBack := by
  intro w r i h
  obtain ⟨p, hfits, rfl, rfl⟩ := decode_eq_ok h
  rcases toPort_decodePort p with hp | ⟨a, v, rfl, hi⟩
  · exact .inl (by rw [encode_eq_toRaw, hp])
  · have hctl : (cfgCtl false a).toNat = 0 * 2 ^ 3 + a.toNat := toNat_append_eq_add 0#1 a
    exact .inr ⟨a, v, hfits, hi, by rw [PortWord.toRaw, hctl, Nat.zero_mul, Nat.zero_add]⟩

/-- Settles O5, one kind of port bits after the other. -/
theorem portWordsDecodeAsTheirNumbers : Obligations.PortWordsDecodeAsTheirNumbers := fun w =>
  ⟨fun b => decode_toRaw (w := w) (p := .op b) trivial, fun b => decode_toRaw (w := w) (p := .host (.sym b)) trivial,
    fun b => decode_toRaw (w := w) (p := .host (.frame b)) trivial,
    fun c v hv => decode_toRaw (w := w) (p := .host (.cfg c v)) hv⟩

/-- Settles O1: each word decodes by computation. -/
theorem opcodeTableWordsDecode : Obligations.OpcodeTableWordsDecode := by
  unfold Obligations.OpcodeTableWordsDecode
  decide
end

section
/-! PROOFS. What a turn runs that is given to the unit or to a placed word (R43, R72), and what the symbols and frames driven
on `in` do (R71, R73, R85): the oldest symbol that waits is accepted as the unit's own turn accepts it, and the others wait. -/

namespace Sys2Proof.Machine

/-! ### Turns -/

section Turns
variable {s : State}

/-- An `OP` word set in `CTRL[2:0]` with the unit's turn is the operation that runs. -/
theorem step_placeOp (s : State) (b : BitVec 3) : step (s.placeOp b) = exec (decodeOp b) { s with op := b } :=
  step_unit (State.nextTurn_of_head rfl)

/-- A word put at the head of the script with the host's turn is the instruction that runs. -/
theorem step_placeWord (s : State) (w : HostWord) : step (s.placeWord w) = exec (decodeHostWord w) s :=
  step_host_word (State.nextTurn_of_head rfl) rfl

/-- A turn that the schedule gives to the unit. -/
theorem step_of_sched_unit {turns : List Agent} (h : s.host.sched = .unit :: turns) :
    step s = .next (State.unitStep { s with host := { s.host with sched := turns } } (pathOf s.op)) := by
  rw [step_unit (State.nextTurn_of_head (by rw [h]; rfl)), exec_decodeOp, State.popTurn, h]
  rfl

end Turns

/-! ### Accepting the oldest symbol -/

section Accepting
variable {s : State} {p : Path} {x : Sym} {rest : List Sym}

/-- The status field of an end is ignored (R82, R151). -/
theorem State.acceptOn_eom_status (s : State) (p : Path) (st st' : Byte) :
    s.acceptOn p (.eom st) = s.acceptOn p (.eom st') := by
  cases p <;> rfl

/-- R151: an accepted byte sets `BUSY` and counts, and the record stays. -/
theorem State.acceptOn_data_counts (s : State) (p : Path) (b : Byte) :
    (s.acceptOn p (.data b)).busy = true ∧ (s.acceptOn p (.data b)).inOff = wrap s.width (s.inOff + 1) ∧
    s.SameRecord (s.acceptOn p (.data b)) := by
  cases p <;> exact ⟨rfl, rfl, rfl, rfl, rfl⟩

/-- R151: an end that a sequential unit accepts sets `BUSY`; nothing is counted, completed or put out. -/
theorem Path.Sequential.acceptOn_eom_keeps (hp : p.Sequential) (s : State) (st : Byte) :
    (s.acceptOn p (.eom st)).busy = true ∧ (s.acceptOn p (.eom st)).inOff = s.inOff ∧
    s.SameRecord (s.acceptOn p (.eom st)) ∧ (s.acceptOn p (.eom st)).host = s.host := by
  obtain ⟨on, rfl⟩ | ⟨on, rfl⟩ := hp <;> exact ⟨rfl, rfl, ⟨rfl, rfl, rfl⟩, rfl⟩

theorem State.transferIn_of_inReady (hin : s.host.inPend = x :: rest) (hr : s.inReady p x = true) :
    s.transferIn p = State.acceptOn { s with host := { s.host with inPend := rest } } p x := by
  rw [State.transferIn_cons hin, if_pos hr]

/-- R123, R142: where the oldest symbol can be accepted, the unit's turn accepts it. -/
theorem State.unitStep_of_inReady (hin : s.host.inPend = x :: rest) (hr : s.inReady p x = true) :
    s.unitStep p = State.acceptOn { s with host := { s.host with inPend := rest } } p x := by
  rw [State.unitStep_of_emitOn_none (State.emitOn_of_inReady hr), State.transferIn_of_inReady hin hr]

/-- With `x` the oldest symbol that waits and its guard met, the turn of the selected operation accepts it. -/
theorem exec_decodeOp_accepts (hr : s.AcceptGuard x) (rest : List Sym) :
    exec (decodeOp s.op) { s with host := { s.host with inPend := x :: rest } } =
      .next (State.acceptOn { s with host := { s.host with inPend := rest } } (pathOf s.op) x) := by
  rw [exec_decodeOp]
  exact congrArg _ (State.unitStep_of_inReady (s := { s with host := { s.host with inPend := x :: rest } }) rfl
    ((s.inReady_pathOf_iff x).mpr hr))

/-- The instructions that drive symbols on `in` (R71, R73). -/
theorem offered_ne_nil {i : Instr} (hi : (∃ d, i = .data d) ∨ (∃ st, i = .endSym st) ∨ (∃ v n, i = .rep v n)) :
    offered i ≠ [] := by
  rcases hi with ⟨_, rfl⟩ | ⟨_, rfl⟩ | ⟨_, _, rfl⟩ <;> exact List.cons_ne_nil _ _

/-- Driving symbols accepts the oldest that waits, where its guard is met. -/
theorem exec_offered_accepts {i : Instr} (hi : offered i ≠ []) (hin : s.host.inPend ++ offered i = x :: rest)
    (hr : s.AcceptGuard x) :
    exec i s = .next (State.acceptOn { s with host := { s.host with inPend := rest } } (pathOf s.op) x) := by
  rw [exec_drive hi]
  exact congrArg _ (State.transferIn_of_inReady (s := s.offerIn (offered i)) hin ((s.inReady_pathOf_iff x).mpr hr))

/-- Symbols offered behind the oldest one do not change what its transfer does. -/
theorem State.transferIn_offerIn (hne : s.host.inPend ≠ []) (p : Path) (l : List Sym) :
    (s.offerIn l).transferIn p = (s.transferIn p).offerIn l := by
  obtain ⟨x, rest, hin⟩ := List.exists_cons_of_ne_nil hne
  have hready : (s.offerIn l).inReady p x = s.inReady p x := rfl
  rw [State.transferIn_cons hin, State.transferIn_cons (s := s.offerIn l) (congrArg (· ++ l) hin), hready]
  split_ifs
  · cases p <;> cases x <;> rfl
  · rfl

end Accepting

/-! ### Repetitions under `RLED` and `MIXD` -/

theorem core_run_succ {s t : State} (h : step s = .next t) (k : Nat) :
    Sys2Proof.core.run (k + 1) s = Sys2Proof.core.run k t :=
  run_succ_of_step (M := Sys2Proof.core) h k

/-- `s` with other registers of `RLE-D`, other turns to come and other symbols received. -/
def State.withExpander (s : State) (d : DecRegs) (turns : List Agent) (out : List Sym) : State :=
  { s with dec := d, host := { s.host with sched := turns, out := out } }

section Repetitions
variable {s : State} {on : Bool} {v n c : Byte} {turns : List Agent} {out : List Sym}

theorem step_withExpander_unit (s : State) (d : DecRegs) (turns : List Agent) (out : List Sym) :
    step (s.withExpander d (.unit :: turns) out) = .next ((s.withExpander d turns out).unitStep (pathOf s.op)) :=
  step_of_sched_unit rfl

/-- R140: the unit's turn puts one repetition out. -/
theorem step_repeating (hp : pathOf s.op = .dec on) (hc : scuIf on .decode s.k (.data v) = .data c)
    (hout : s.host.outReady = true) (hn : n ≠ 0) :
    step (s.withExpander (.repeating v n) (.unit :: turns) out) =
      .next (s.withExpander (.repeating v (n - 1)) turns (out ++ [.data c])) := by
  have hemit : (s.withExpander (.repeating v n) turns out).emitOn (.dec on) =
      some ((s.withExpander (.repeating v (n - 1)) turns out).deliver (scuIf on .decode s.k (.data v))) := by
    simp only [State.emitOn, State.withExpander, DecRegs.repeating_emit v hn]
    rfl
  rw [step_withExpander_unit, hp, State.unitStep_of_emitOn hemit hout, hc]
  rfl

/-- As many turns of the unit as there are repetitions put them all out and leave `RLE-D` at its reset values (R132). -/
theorem run_repeating (hp : pathOf s.op = .dec on) (hc : scuIf on .decode s.k (.data v) = .data c)
    (hout : s.host.outReady = true) {k : Nat} (hk : n.toNat = k) :
    Sys2Proof.core.run k (s.withExpander (.repeating v n) (List.replicate k .unit ++ turns) out) =
      .next (s.withExpander .reset turns (out ++ List.replicate k (.data c))) := by
  induction k generalizing n out with
  | zero =>
    obtain rfl : n = 0 := BitVec.eq_of_toNat_eq hk
    exact congrArg (fun l => Host.Outcome.next (s.withExpander .reset turns l)) (List.append_nil out).symm
  | succ k ih =>
    have hn : n ≠ 0 := by rintro rfl; cases hk
    have hrest : (n - 1).toNat = k := by bv_omega
    refine (core_run_succ (step_repeating hp hc hout hn) k).trans ((ih hrest).trans ?_)
    rw [List.append_assoc, List.replicate_succ, List.singleton_append]

/-- The value byte of a frame is accepted at a frame boundary (R135). -/
theorem exec_rep_at_boundary (hp : pathOf s.op = .dec on) (hdec : s.dec = DecRegs.reset) (hin : s.host.inPend = []) :
    exec (.rep v n) s = .next { s with
      busy := true
      inOff := wrap s.width (s.inOff + 1)
      dec := { DecRegs.reset with fv := v, ph := true }
      host := { s.host with inPend := [.data n] } } := by
  have hguard : s.AcceptGuard (.data v) := (s.inReady_pathOf_iff _).mp (by rw [hp, State.inReady, hdec]; rfl)
  rw [exec_offered_accepts (i := .rep v n) (rest := [.data n]) (List.cons_ne_nil _ _) (by rw [hin]; rfl) hguard, hp,
    State.acceptOn_dec_data, hdec, DecRegs.accept_value rfl]

/-- The count byte is accepted at the unit's turn (R136, R137). -/
theorem step_count (hp : pathOf s.op = .dec on) (hdec : s.dec = { DecRegs.reset with fv := v, ph := true })
    (hin : s.host.inPend = [.data n]) (hsched : s.host.sched = .unit :: turns) :
    step s = .next (State.withExpander
      { s with busy := true, inOff := wrap s.width (s.inOff + 1), host := { s.host with inPend := [] } }
      (.repeating v n) turns s.host.out) := by
  have hr : s.inReady (.dec on) (.data n) = true := by rw [State.inReady, hdec]; rfl
  rw [step_of_sched_unit hsched, hp,
    State.unitStep_of_inReady (s := { s with host := { s.host with sched := turns } }) (p := .dec on) hin hr,
    State.acceptOn_dec_data]
  dsimp only
  rw [hdec, DecRegs.accept_count_eq_repeating]
  rfl

/-- At a frame boundary, driving a frame and one turn of the unit load the expander with the repetitions. -/
theorem exec_rep_then_step (hp : pathOf s.op = .dec on) (hdec : s.dec = DecRegs.reset) (hin : s.host.inPend = [])
    (hsched : s.host.sched = .unit :: turns) :
    ∃ u : State, exec (.rep v n) s = .next u ∧
      step u = .next (State.withExpander { s with busy := true, inOff := wrap s.width (s.inOff + 2) }
        (.repeating v n) turns s.host.out) := by
  refine ⟨_, exec_rep_at_boundary hp hdec hin, (step_count (on := on) (turns := turns) ?_ rfl rfl ?_).trans ?_⟩
  · exact hp
  · exact hsched
  · simp only [State.withExpander, wrap_wrap_succ, hin]

end Repetitions

end Sys2Proof.Machine

open Sys2Proof Sys2Proof.Machine

/-- Settles O9: the table word's format says where it is placed, and the turn placed with it fetches it from there. -/
theorem placedWordRunsNext : Obligations.PlacedWordRunsNext := by
  intro s nbits w i h
  obtain ⟨p, hp, rfl⟩ := Option.map_eq_some_iff.mp h
  rw [State.withFetchWord, hp]
  cases p with
  | op b => exact ⟨_, step_placeOp s b, .inr ⟨b, rfl, rfl⟩⟩
  | host x => exact ⟨s, step_placeWord s x, .inl rfl⟩

/-- Settles O42: both the driven symbols and the operation's turn accept the byte, and an accept has its frame. -/
theorem dataSymbolAcceptedWhenReady : Obligations.DataSymbolAcceptedWhenReady := by
  intro s i b rest hi hin hguard
  obtain ⟨hbusy, hoff, hrecord⟩ :=
    State.acceptOn_data_counts { s with host := { s.host with inPend := rest } } (pathOf s.op) b
  obtain ⟨hwidth, hop, hshift, new, hhost⟩ :=
    State.acceptOn_frame { s with host := { s.host with inPend := rest } } (pathOf s.op) (.data b)
  exact ⟨_, exec_offered_accepts (offered_ne_nil hi) hin hguard, exec_decodeOp_accepts hguard rest, hbusy, hoff, hwidth,
    hop, hshift, hrecord, by rw [hhost]⟩

/-- Settles O43: as O42, for an end of any status; what it completes is said path by path. -/
theorem endSymbolAcceptedWhenReady : Obligations.EndSymbolAcceptedWhenReady := by
  intro s i st rest hi hin hguard
  have hguard0 : s.AcceptGuard (.eom 0) := by
    obtain ⟨hcipher, henc, hdec, hsink⟩ := hguard
    exact ⟨hcipher, henc, hdec, fun hop _ _ => hsink hop st rfl⟩
  obtain ⟨hwidth, hop, hshift, -⟩ :=
    State.acceptOn_frame { s with host := { s.host with inPend := rest } } (pathOf s.op) (.eom st)
  refine ⟨_, exec_offered_accepts (offered_ne_nil hi) hin hguard, exec_decodeOp_accepts hguard rest, ?_, hwidth, hop,
    hshift, fun hseq => ?_, fun hcipher => ?_, fun hsink => ?_⟩
  · rw [State.acceptOn_eom_status _ _ st 0]
    exact exec_decodeOp_accepts hguard0 rest
  · exact ((pathOf_sequential_iff s.op).mpr hseq).acceptOn_eom_keeps _ st
  · rcases hcipher with h | h <;> rw [h] <;> rfl
  · rcases hsink with h | h <;> rw [h] <;> rfl

/-- Settles O45: the value is accepted with the drive, the count at the first turn, and each further turn puts one repetition
out. -/
theorem repExpandsFrame : Obligations.RepExpandsFrame := by
  intro s v n c turns hop hdec hin hout hsched
  obtain ⟨on, hp, hc⟩ : ∃ on, pathOf s.op = .dec on ∧ scuIf on .decode s.k (.data v) = .data c := by
    rcases hop with ⟨h, rfl⟩ | ⟨h, rfl⟩ <;> rw [h]
    · exact ⟨false, rfl, rfl⟩
    · exact ⟨true, rfl, rfl⟩
  obtain ⟨u, hexec, hstep⟩ := exec_rep_then_step (v := v) (n := n) hp hdec hin hsched
  have hrun := run_repeating (s := { s with busy := true, inOff := wrap s.width (s.inOff + 2) }) (n := n) (turns := turns)
    (out := s.host.out) hp hc hout rfl
  refine ⟨u, hexec, (core_run_succ hstep _).trans (hrun.trans ?_)⟩
  rw [State.withExpander, hdec]

/-- Settles O46: the count is offered behind the value, so the transfer is that of `DATA V`. -/
theorem repIsTwoDataSymbols : Obligations.RepIsTwoDataSymbols := by
  intro s t v n h
  refine ⟨?_, fun hin hrem hend hop => ?_⟩
  · cases h
    have hoffer : s.offerIn [.data v, .data n] = (s.offerIn [.data v]).offerIn [.data n] := by
      simp [State.offerIn]
    exact congrArg _ ((congrArg (State.transferIn · _) hoffer).trans
      (State.transferIn_offerIn (s := s.offerIn [.data v]) (by simp) _ _))
  · obtain ⟨on, hp⟩ := (pathOf_dec_iff s.op).mpr hop
    have hready : s.inReady (pathOf s.op) (.data v) = true := by
      rw [hp]
      exact DecRegs.ready_iff.mpr ⟨hrem, hend⟩
    rw [exec_offered_accepts (i := .data v) (rest := []) (List.cons_ne_nil _ _) (by rw [hin]; rfl)
      ((s.inReady_pathOf_iff _).mp hready), hp] at h
    cases h
    exact ⟨rfl, rfl⟩

/-- Settles O7: the unit's turn, given by the schedule, or taken by the default order because the port cannot move and the
unit can or the host has nothing left to do. -/
theorem stepRunsSelectedOperation : Obligations.StepRunsSelectedOperation := by
  intro s hturn
  refine step_unit ?_
  rcases hturn with hgiven | ⟨hnil, hport, hunit | hscript⟩
  · exact State.nextTurn_of_head hgiven
  · rw [State.nextTurn_of_nil hnil]
    simp [State.defaultTurn, hport, hunit]
  · rw [State.nextTurn_of_nil hnil]
    simp [State.defaultTurn, hport, hscript]
end

section
/-! PROOFS. The substitution of bytes (R91 to R93, R99, R100): each class of letters is a cycle of 26, `SUB_ENC(K, ·)` turns it
by `K` and `SUB_DEC(K, ·)` turns it by `-K`. So the shifts act on the bytes as the integers modulo 26, and what is said of
`SUB_DEC` is what is said of `SUB_ENC`. -/

namespace Sys2Proof.Machine

/-! ### The classes (R91) -/

/-- `base(cls)` (R91), the code of the first letter of a class; `other` has no letters, and the
lemmas about letters leave it out. -/
def Cls.base : Cls → Nat
  | .upper => 0x41
  | .lower => 0x61
  | .other => 0

section Substitution
variable {b : Byte} {c : Cls}

theorem cls_eq_upper_iff : cls b = .upper ↔ 0x41 ≤ b.toNat ∧ b.toNat ≤ 0x5A := by
  unfold cls
  split_ifs with hupper hlower
  · exact iff_of_true rfl hupper
  · exact iff_of_false (by decide) hupper
  · exact iff_of_false (by decide) hupper

theorem cls_eq_lower_iff : cls b = .lower ↔ 0x61 ≤ b.toNat ∧ b.toNat ≤ 0x7A := by
  unfold cls
  split_ifs with hupper hlower
  · exact iff_of_false (by decide) (by omega)
  · exact iff_of_true rfl hlower
  · exact iff_of_false (by decide) hlower

theorem cls_eq_other_iff :
    cls b = .other ↔ ¬ (0x41 ≤ b.toNat ∧ b.toNat ≤ 0x5A) ∧ ¬ (0x61 ≤ b.toNat ∧ b.toNat ≤ 0x7A) := by
  rw [← cls_eq_upper_iff, ← cls_eq_lower_iff]
  cases cls b <;> decide

/-! ### The letters of a class, by position -/

/-- The sum does not overflow the byte (R97). -/
theorem letter_toNat {base : Nat} (hbase : base ≤ 0x61) (p : Nat) : (letter base p).toNat = base + p % 26 := by
  rw [letter, BitVec.toNat_ofNat]
  omega

/-- Positions count modulo 26. -/
theorem letter_congr {p q : Nat} (base : Nat) (h : p % 26 = q % 26) : letter base p = letter base q := by
  rw [letter, letter, h]

theorem Cls.base_le (c : Cls) : c.base ≤ 0x61 := by
  cases c <;> decide

theorem cls_letter (hc : c ≠ .other) (p : Nat) : cls (letter c.base p) = c := by
  have hp := letter_toNat c.base_le p
  cases c with
  | upper => exact cls_eq_upper_iff.mpr (by simp only [Cls.base] at hp ⊢; omega)
  | lower => exact cls_eq_lower_iff.mpr (by simp only [Cls.base] at hp ⊢; omega)
  | other => exact absurd rfl hc

/-- A byte that is a letter is one of its class's letters. -/
theorem exists_eq_letter (h : cls b ≠ .other) : ∃ p, b = letter (cls b).base p := by
  refine ⟨b.toNat - (cls b).base, BitVec.eq_of_toNat_eq ?_⟩
  rw [letter_toNat (Cls.base_le _)]
  cases hb : cls b with
  | upper => have := cls_eq_upper_iff.mp hb; simp only [Cls.base]; omega
  | lower => have := cls_eq_lower_iff.mp hb; simp only [Cls.base]; omega
  | other => exact absurd hb h

/-- A claim about bytes is one about the bytes that are no letter and one about the letters of a class. -/
theorem byte_cases {P : Byte → Prop} (hother : ∀ b, cls b = .other → P b)
    (hletter : ∀ (c : Cls) p, c ≠ .other → P (letter c.base p)) (b : Byte) : P b := by
  by_cases h : cls b = .other
  · exact hother b h
  · obtain ⟨p, hp⟩ := exists_eq_letter h
    rw [hp]
    exact hletter (cls b) p h

/-! ### Turning a class (R92, R93) -/

theorem subEnc_of_other (h : cls b = .other) (k : Fin 26) : subEnc k b = b := by
  rw [subEnc, h]

theorem subDec_of_other (h : cls b = .other) (k : Fin 26) : subDec k b = b := by
  rw [subDec, h]

theorem subEnc_of_letter (h : cls b = c) (hc : c ≠ .other) (k : Fin 26) :
    subEnc k b = letter c.base (b.toNat - c.base + k.val) := by
  rw [subEnc, h]
  cases c with
  | upper | lower => rfl
  | other => exact absurd rfl hc

theorem subDec_of_letter (h : cls b = c) (hc : c ≠ .other) (k : Fin 26) :
    subDec k b = letter c.base (b.toNat - c.base + 26 - k.val) := by
  rw [subDec, h]
  cases c with
  | upper | lower => rfl
  | other => exact absurd rfl hc

/-- R92 and R93 as numbers. -/
theorem substitution_toNat (h : cls b = c) (hc : c ≠ .other) (k : Fin 26) :
    (subEnc k b).toNat = c.base + (b.toNat - c.base + k.val) % 26 ∧
    (subDec k b).toNat = c.base + (b.toNat - c.base + 26 - k.val) % 26 := by
  rw [subEnc_of_letter h hc, subDec_of_letter h hc]
  exact ⟨letter_toNat c.base_le _, letter_toNat c.base_le _⟩

theorem subEnc_letter (hc : c ≠ .other) (k : Fin 26) (p : Nat) :
    subEnc k (letter c.base p) = letter c.base (p + k.val) := by
  rw [subEnc_of_letter (cls_letter hc p) hc, letter_toNat c.base_le]
  exact letter_congr _ (by omega)

/-- R93: decoding by `K` is encoding by `(26 - K) mod 26`, the inverse of `K` modulo 26. -/
theorem subDec_eq_subEnc_neg (k : Fin 26) (b : Byte) : subDec k b = subEnc (-k) b := by
  by_cases h : cls b = .other
  · rw [subDec_of_other h, subEnc_of_other h]
  · have hneg : (-k).val = (26 - k.val) % 26 := Fin.val_neg' k
    have hk := k.isLt
    rw [subDec_of_letter rfl h, subEnc_of_letter rfl h]
    exact letter_congr _ (by omega)

theorem cls_subEnc (k : Fin 26) : ∀ b, cls (subEnc k b) = cls b :=
  byte_cases (fun _ h => by rw [subEnc_of_other h])
    (fun _ p hc => by rw [subEnc_letter hc, cls_letter hc, cls_letter hc])

/-- Encoding twice is encoding by the sum of the shifts. -/
theorem subEnc_subEnc (j k : Fin 26) : ∀ b, subEnc j (subEnc k b) = subEnc (j + k) b :=
  byte_cases (fun _ h => by rw [subEnc_of_other h, subEnc_of_other h, subEnc_of_other h])
    (fun _ p hc => by
      rw [subEnc_letter hc, subEnc_letter hc, subEnc_letter hc]
      exact letter_congr _ (by rw [Fin.val_add]; omega))

theorem subEnc_zero : ∀ b, subEnc 0 b = b :=
  byte_cases (fun _ h => subEnc_of_other h 0) (fun _ p hc => subEnc_letter hc 0 p)

/-- R99. -/
theorem subDec_subEnc (k : Fin 26) (b : Byte) : subDec k (subEnc k b) = b := by
  rw [subDec_eq_subEnc_neg, subEnc_subEnc, neg_add_cancel, subEnc_zero]

/-- R99. -/
theorem subEnc_subDec (k : Fin 26) (b : Byte) : subEnc k (subDec k b) = b := by
  rw [subDec_eq_subEnc_neg, subEnc_subEnc, add_neg_cancel, subEnc_zero]

theorem cls_subDec (k : Fin 26) (b : Byte) : cls (subDec k b) = cls b := by
  rw [subDec_eq_subEnc_neg, cls_subEnc]

end Substitution
end Sys2Proof.Machine

open Sys2Proof Sys2Proof.Machine

/-- Settles O28: each class has its equation, and the last clause says that `j` is `-k` modulo 26. -/
theorem substitutionFormulas : Obligations.SubstitutionFormulas := by
  intro k b
  refine ⟨fun h => substitution_toNat (cls_eq_upper_iff.mpr h) (by decide) k,
    fun h => substitution_toNat (cls_eq_lower_iff.mpr h) (by decide) k, fun h => ?_, fun j hj => ?_⟩
  · have hb := cls_eq_other_iff.mpr h
    exact ⟨subEnc_of_other hb k, subDec_of_other hb k⟩
  · obtain rfl : j = -k := Fin.ext (hj.trans (Fin.val_neg' k).symm)
    exact subDec_eq_subEnc_neg k b

/-- Settles O29: `SUB_DEC(K, ·)` is the inverse of `SUB_ENC(K, ·)`, and both map each class into itself. -/
theorem decodeInvertsEncodeSubstitution : Obligations.DecodeInvertsEncodeSubstitution := by
  intro k
  refine ⟨fun b => ⟨subDec_subEnc k b, subEnc_subDec k b⟩, Function.LeftInverse.list_map (subDec_subEnc k), fun c => ?_⟩
  have hinv : Set.InvOn (subDec k) (subEnc k) { b | cls b = c } { b | cls b = c } :=
    ⟨fun b _ => subDec_subEnc k b, fun b _ => subEnc_subDec k b⟩
  exact hinv.bijOn (fun b hb => (cls_subEnc k b).trans hb) (fun b hb => (cls_subDec k b).trans hb)

/-- Settles O30, byte by byte; a message without letters is mapped by what is the identity on its bytes. -/
theorem substitutionKeepsClass : Obligations.SubstitutionKeepsClass := by
  intro k
  refine ⟨fun b => ⟨cls_subEnc k b, cls_subDec k b, fun h => ⟨subEnc_of_other h k, subDec_of_other h k⟩⟩, fun l hl => ?_⟩
  exact ⟨(List.map_congr_left fun b hb => subEnc_of_other (hl b hb) k).trans l.map_id,
    (List.map_congr_left fun b hb => subDec_of_other (hl b hb) k).trans l.map_id⟩
end

section
/-! PROOFS. Where `SHIFT` is used (R23, R98): only an access reads or writes the register itself; the unit reads the residue
`K`, so two values of `SHIFT` with one residue move it alike. -/

namespace Sys2Proof.Machine

/-- `s` with another value in `SHIFT`. -/
def State.withShift (s : State) (v : Word) : State :=
  { s with shift := v }

section Shift
variable {s : State} {v : Word}

@[simp] theorem State.withShift_enc (s : State) (v : Word) : (s.withShift v).enc = s.enc := rfl
@[simp] theorem State.withShift_dec (s : State) (v : Word) : (s.withShift v).dec = s.dec := rfl

/-- Delivering a symbol does not use `SHIFT`. -/
theorem State.deliver_withShift (s : State) (v : Word) (x : Sym) :
    (s.withShift v).deliver x = (s.deliver x).withShift v := by
  cases x <;> rfl

/-- Accepting a symbol substitutes by `K`. -/
theorem State.acceptOn_withShift (hk : (s.withShift v).k = s.k) (p : Path) (x : Sym) :
    (s.withShift v).acceptOn p x = (s.acceptOn p x).withShift v := by
  cases p with
  | cipher dir =>
    cases x with
    | data b => rw [State.acceptOn_cipher_data, hk]; rfl
    | eom st => rfl
  | enc on =>
    cases x with
    | data b => rw [State.acceptOn_enc_data, State.acceptOn_enc_data, hk]; rfl
    | eom st => rfl
  | dec on => cases x <;> rfl
  | sink => cases x <;> rfl

/-- Emitting a symbol substitutes by `K`. -/
theorem State.emitOn_withShift (hk : (s.withShift v).k = s.k) (p : Path) :
    (s.withShift v).emitOn p = (s.emitOn p).map (·.withShift v) := by
  cases p with
  | cipher dir => rfl
  | enc on =>
    rw [State.emitOn, State.emitOn, State.withShift_enc]
    cases s.enc.emit with
    | none => rfl
    | some r => exact congrArg some (State.deliver_withShift { s with enc := r.2 } v r.1)
  | dec on =>
    rw [State.emitOn, State.emitOn, State.withShift_dec, hk]
    cases s.dec.emit with
    | none => rfl
    | some r => exact congrArg some (State.deliver_withShift { s with dec := r.2 } v (scuIf on .decode s.k r.1))
  | sink => rfl

theorem State.transferIn_withShift (hk : (s.withShift v).k = s.k) (p : Path) :
    (s.withShift v).transferIn p = (s.transferIn p).withShift v := by
  rcases hin : s.host.inPend with _ | ⟨x, rest⟩
  · rw [State.transferIn_nil hin, State.transferIn_nil (s := s.withShift v) hin]
  · have hready : (s.withShift v).inReady p x = s.inReady p x := rfl
    rw [State.transferIn_cons hin, State.transferIn_cons (s := s.withShift v) hin, hready]
    split_ifs
    · exact State.acceptOn_withShift (s := { s with host := { s.host with inPend := rest } }) hk p x
    · rfl

theorem State.unitStep_withShift (hk : (s.withShift v).k = s.k) (p : Path) :
    (s.withShift v).unitStep p = (s.unitStep p).withShift v := by
  rw [State.unitStep, State.unitStep, State.emitOn_withShift hk]
  cases s.emitOn p with
  | none => exact State.transferIn_withShift hk p
  | some u => exact (apply_ite (State.withShift · v) (s.host.outReady = true) u s).symm

/-- Whatever an instruction that is no access does, it does beside every value of `SHIFT` with the same residue. -/
theorem exec_withShift {i : Instr} (hk : (s.withShift v).k = s.k) (hi : accesses i = []) {t : State}
    (h : exec i s = .next t) : exec i (s.withShift v) = .next (t.withShift v) := by
  cases i with
  | cenc | cdec | rlec | rled | mixe | mixd | rsv6 | rsv7 =>
    cases h
    exact congrArg _ (State.unitStep_withShift hk _)
  | data | endSym | rep =>
    cases h
    exact congrArg _ (State.transferIn_withShift (s := s.offerIn _) hk _)
  | cfgWrite | cfgRead => cases hi

end Shift
end Sys2Proof.Machine

open Sys2Proof Sys2Proof.Machine

/-- Settles O31: equal residues are one `K`, and the unit uses no more of `SHIFT`. -/
theorem shiftAliasesAgree : Obligations.ShiftAliasesAgree := by
  intro i s t v hk hwrite hread h
  refine exec_withShift hk ?_ h
  cases i with
  | cfgWrite a x => exact absurd rfl (hwrite a x)
  | cfgRead a => exact absurd rfl (hread a)
  | _ => rfl
end

section
/-! PROOFS. `RLE-E` and `compress` (R111 to R125): the runs of a list are its maximal runs, its frames are cut off one by one
from the front, and the two operations on the encoder's path accept and emit as the rules of the encoder say. -/

namespace Sys2Proof.Machine

/-! ### The runs of a list (R111) -/

section MaximalRuns
variable {l : List Byte} {v : Byte} {n : Nat} {rs : List (Byte × Nat)}

/-- The first run begins with the first byte. -/
theorem RunsOf.head?_eq (h : RunsOf l rs) : l.head? = rs.head?.map Prod.fst := by
  obtain ⟨rfl, hlen, -⟩ := h
  rcases rs with _ | ⟨⟨v, n⟩, rs⟩
  · rfl
  · obtain ⟨m, rfl⟩ := Nat.exists_eq_add_of_le' (hlen (v, n) List.mem_cons_self)
    simp [List.replicate_succ]

/-- A first run, and the runs of a rest that does not go on with its value. -/
theorem runsOf_cons_iff :
    RunsOf l ((v, n) :: rs) ↔ 1 ≤ n ∧ ∃ rest, l = List.replicate n v ++ rest ∧ rest.head? ≠ some v ∧ RunsOf rest rs := by
  constructor
  · rintro ⟨rfl, hlen, hchain⟩
    obtain ⟨hn, hlen⟩ := List.forall_mem_cons.mp hlen
    obtain ⟨hne, hchain⟩ := List.isChain_cons.mp hchain
    have hrest : RunsOf (rs.flatMap fun r => List.replicate r.2 r.1) rs := ⟨rfl, hlen, hchain⟩
    refine ⟨hn, _, rfl, fun hv => ?_, hrest⟩
    obtain ⟨r, hr, hrv⟩ := Option.map_eq_some_iff.mp (hrest.head?_eq.symm.trans hv)
    exact hne r hr hrv.symm
  · rintro ⟨hn, rest, rfl, hne, hrest⟩
    have hhead := hrest.head?_eq
    obtain ⟨rfl, hlen, hchain⟩ := hrest
    refine ⟨rfl, List.forall_mem_cons.mpr ⟨hn, hlen⟩, List.isChain_cons.mpr ⟨fun r hr hrv => hne ?_, hchain⟩⟩
    rw [hhead, Option.mem_def.mp hr]
    exact congrArg some hrv.symm

/-- `runs` answers maximal runs: a byte lengthens the first run or begins one of its own. -/
theorem runsOf_runs (l : List Byte) : RunsOf l (runs l) := by
  induction l with
  | nil => decide
  | cons b l ih =>
    by_cases hb : l.head? = some b
    · obtain ⟨l, rfl⟩ := List.head?_eq_some_iff.mp hb
      obtain ⟨n, more, hr⟩ := runs_cons_head b l
      rw [hr, runsOf_cons_iff] at ih
      obtain ⟨-, rest, hrest, hne, hmore⟩ := ih
      rw [runs_cons_same hr, runsOf_cons_iff, hrest]
      exact ⟨Nat.succ_pos _, rest, rfl, hne, hmore⟩
    · rw [runs_cons_ne hb, runsOf_cons_iff]
      exact ⟨le_rfl, l, rfl, hb, ih⟩

/-- There are no other maximal runs. -/
theorem RunsOf.eq_runs (h : RunsOf l rs) : rs = runs l := by
  induction rs generalizing l with
  | nil =>
    obtain ⟨rfl, -⟩ := h
    rfl
  | cons r rs ih =>
    obtain ⟨hn, rest, rfl, hne, hrest⟩ := runsOf_cons_iff.mp h
    obtain ⟨n, hn⟩ := Nat.exists_eq_add_of_le' hn
    rw [hn, runs_replicate_append hne, ← ih hrest, ← hn]

/-- The closed form of R112, with its `q` and `r`. -/
theorem frames_of_quotient (v : Byte) (q : Nat) {r : Nat} (h1 : 1 ≤ r) (h255 : r ≤ 255) :
    frames v (255 * q + r) = (List.replicate q [v, (255 : Byte)]).flatten ++ [v, BitVec.ofNat 8 r] := by
  have hq : (255 * q + r - 1) / 255 = q := by omega
  rw [frames, hq, Nat.add_sub_cancel_left]

end MaximalRuns

/-! ### The frames of a list, from the front (R112, R125) -/

/-- The bytes that the first frame of a list stands for: a run ends with its frame, unless the frame is full. -/
theorem exists_first_frame (b : Byte) (l : List Byte) :
    ∃ (n : Byte) (rest : List Byte), n ≠ 0 ∧ (rest.head? = some b → n = 255) ∧
      b :: l = List.replicate n.toNat b ++ rest := by
  induction l with
  | nil => exact ⟨1, [], by decide, by simp, rfl⟩
  | cons c l ih =>
    by_cases hc : c = b
    · subst hc
      obtain ⟨n, rest, hn, hfull, hl⟩ := ih
      by_cases h255 : n = 255
      · subst h255
        refine ⟨255, c :: rest, hn, fun _ => rfl, ?_⟩
        rw [hl, ← List.cons_append, ← List.replicate_succ, List.replicate_succ', List.append_assoc]
        rfl
      · have hsucc : (n + 1).toNat = n.toNat + 1 := by bv_omega
        refine ⟨n + 1, rest, by bv_omega, fun hr => absurd (hfull hr) h255, ?_⟩
        rw [hl, hsucc, List.replicate_succ, List.cons_append]
    · exact ⟨1, c :: l, by decide, fun h => absurd (Option.some.inj h) hc, rfl⟩

/-- What holds of no bytes, and of a list if it holds of what is left behind its first frame, holds of every list. -/
theorem frame_induction {P : List Byte → Prop} (nil : P [])
    (frame : ∀ (v n : Byte) (l : List Byte), n ≠ 0 → (l.head? = some v → n = 255) → P l →
      P (List.replicate n.toNat v ++ l)) :
    ∀ l, P l
  | [] => nil
  | b :: l => by
    obtain ⟨n, rest, hn, hfull, hl⟩ := exists_first_frame b l
    have hpos : n.toNat ≠ 0 := fun h0 => hn (BitVec.eq_of_toNat_eq h0)
    have hshorter : rest.length < l.length + 1 := by
      rw [← List.length_cons (a := b), hl, List.length_append, List.length_replicate]
      omega
    rw [hl]
    exact frame b n rest hn hfull (frame_induction nil frame rest)
termination_by l => l.length

section Frames
variable {v n : Byte} {l : List Byte}

/-- `compress` cuts off the first frame. -/
theorem compress_frame (hn : n ≠ 0) (hfull : l.head? = some v → n = 255) :
    compress (List.replicate n.toNat v ++ l) = v :: n :: compress l := by
  by_cases hv : l.head? = some v
  · obtain rfl := hfull hv
    obtain ⟨l, rfl⟩ := List.head?_eq_some_iff.mp hv
    exact compress_replicate_255_append v l
  · exact compress_replicate_byte_append hv hn

/-- Of the bytes of a frame no two neighbours differ, so a list without equal neighbours has frames of one byte only. -/
theorem isChain_ne_frame_iff (hn : n ≠ 0) (hfull : l.head? = some v → n = 255) :
    ((List.replicate n.toNat v ++ l).IsChain fun a b => a ≠ b) ↔ n = 1 ∧ l.IsChain fun a b => a ≠ b := by
  by_cases h1 : n = 1
  · subst h1
    have hhead : ∀ c ∈ l.head?, v ≠ c := fun c hc hv => absurd (hfull (hv ▸ hc)) (by decide)
    simp only [true_and]
    exact List.isChain_cons.trans (and_iff_right hhead)
  · obtain ⟨m, hm⟩ : ∃ m, n.toNat = m + 1 + 1 := ⟨n.toNat - 2, by bv_omega⟩
    refine iff_of_false ?_ fun h => h1 h.1
    simp [hm, List.replicate_succ]

/-- R125 (a). -/
theorem compress_count_ne_zero (l : List Byte) : ∀ (j : Nat) (c : Byte), (compress l)[2 * j + 1]? = some c → c ≠ 0 := by
  induction l using frame_induction with
  | nil => simp [compress, runs]
  | frame v n l hn hfull ih =>
    rw [compress_frame hn hfull]
    rintro (_ | j) c h
    · exact Option.some.inj h ▸ hn
    · exact ih j c h

/-- R125 (b). -/
theorem compress_length_even (l : List Byte) : (compress l).length % 2 = 0 := by
  induction l using frame_induction with
  | nil => rfl
  | frame v n l hn hfull ih =>
    rw [compress_frame hn hfull, List.length_cons, List.length_cons]
    omega

theorem compress_head? (l : List Byte) : (compress l).head? = l.head? := by
  rcases l with _ | ⟨b, l⟩
  · rfl
  · obtain ⟨n, rest, hn, hfull, hl⟩ := exists_first_frame b l
    rw [hl, compress_frame hn hfull, ← hl]
    rfl

/-- R125 (c): two frames of one value follow each other only where a run was split. -/
theorem compress_same_value_full (l : List Byte) : ∀ (j : Nat) (v c : Byte),
    (compress l)[2 * j]? = some v → (compress l)[2 * j + 1]? = some c → (compress l)[2 * j + 2]? = some v → c = 255 := by
  induction l using frame_induction with
  | nil => simp [compress, runs]
  | frame w n l hn hfull ih =>
    rw [compress_frame hn hfull]
    rintro (_ | j) v c hv hc hnext
    · obtain rfl : w = v := Option.some.inj hv
      have hhead : l.head? = some w := by rw [← compress_head?, List.head?_eq_getElem?]; exact hnext
      exact (Option.some.inj hc).symm.trans (hfull hhead)
    · exact ih j v c hv hc hnext

/-- R125 (d), the bound: a frame is two bytes, and stands for one at least. -/
theorem compress_length_le (l : List Byte) : (compress l).length ≤ 2 * l.length := by
  induction l using frame_induction with
  | nil => exact le_rfl
  | frame v n l hn hfull ih =>
    rw [compress_frame hn hfull, List.length_append, List.length_replicate, List.length_cons, List.length_cons]
    have hpos : 1 ≤ n.toNat := by bv_omega
    omega

/-- R125 (d): the bound is met where every frame stands for one byte. -/
theorem compress_length_eq_iff (l : List Byte) :
    (compress l).length = 2 * l.length ↔ l.IsChain fun a b => a ≠ b := by
  induction l using frame_induction with
  | nil => exact iff_of_true rfl List.IsChain.nil
  | frame v n l hn hfull ih =>
    have hone : n = 1 ↔ n.toNat = 1 := BitVec.toNat_inj.symm
    have hpos : 1 ≤ n.toNat := by bv_omega
    have hle := compress_length_le l
    rw [isChain_ne_frame_iff hn hfull, ← ih, compress_frame hn hfull, hone, List.length_append, List.length_replicate,
      List.length_cons, List.length_cons]
    omega

theorem expandFrames_compress (l : List Byte) : expandFrames (compress l) = l := by
  induction l using frame_induction with
  | nil => rfl
  | frame v n l hn hfull ih => rw [compress_frame hn hfull, expandFrames, ih]

/-- R125 (e), R144. -/
theorem decompress_compress (l : List Byte) : decompress (compress l) = .ok l := by
  rw [decompress, if_pos (compress_length_even l), expandFrames_compress]

end Frames

/-! ### The operations on the encoder's path (R113, R153, R158) -/

section Operations
variable {s : State} {e : EncRegs} {i : Instr} {on : Bool} {x : Sym} {rest : List Sym}

/-- The other half of R123, for every count that `FS_N` can hold. -/
theorem EncRegs.ready_of_emit_none (h3 : e.fsN ≠ 3) (h : e.emit = none) : e.ready = true := by
  have h2 : e.fsN ≠ 2 := fun h2 => by simp [EncRegs.emit_value h2] at h
  have h1 : e.fsN ≠ 1 := fun h1 => by simp [EncRegs.emit_count h1] at h
  have h0 : e.fsN = 0 := by bv_omega
  have hp : e.endP ≠ true := fun hp => by simp [EncRegs.emit_end h0 hp] at h
  exact EncRegs.ready_iff.mpr ⟨h0, Bool.eq_false_of_not_eq_true hp⟩

/-- R115 to R118 as one chain. -/
theorem EncRegs.accept_data_eq (e : EncRegs) (c : Byte) :
    e.accept (.data c) =
      if e.haveRun = false then { e with haveRun := true, cur := c, cnt := 1 }
      else if c ≠ e.cur then { e with fsV := e.cur, fsC := e.cnt, fsN := 2, cur := c, cnt := 1 }
      else if e.cnt = 255 then { e with fsV := e.cur, fsC := 255, fsN := 2, cnt := 1 }
      else { e with cnt := e.cnt + 1 } := by
  split_ifs with hrun hc hcnt
  · exact EncRegs.accept_opens hrun c
  · exact EncRegs.accept_closes (Bool.eq_true_of_not_eq_false hrun) hc
  · obtain rfl := not_not.mp hc
    exact EncRegs.accept_splits (Bool.eq_true_of_not_eq_false hrun) hcnt
  · obtain rfl := not_not.mp hc
    exact EncRegs.accept_counts (Bool.eq_true_of_not_eq_false hrun) hcnt

/-- R119: the open run, if there is one, is handed over with its length. -/
theorem EncRegs.accept_eom_eq (h0 : e.fsN = 0) (st : Byte) :
    e.accept (.eom st) =
      { haveRun := false, cur := 0, cnt := 0
        fsN := if e.haveRun then 2 else 0
        fsV := if e.haveRun then e.cur else e.fsV
        fsC := if e.haveRun then e.cnt else e.fsC
        endP := true, endSt := st } := by
  rcases hrun : e.haveRun with _ | _
  · rw [EncRegs.accept_end_empty hrun, h0]
    rfl
  · rw [EncRegs.accept_end_of_run hrun]
    rfl

/-- `RLEC` and `MIXE` are the unit's turn on the encoder's path, without and with `SCU` before the encoder. -/
theorem exec_encoder (hi : i = .rlec ∨ i = .mixe) : ∃ on, exec i s = .next (s.unitStep (.enc on)) := by
  rcases hi with rfl | rfl
  · exact ⟨false, rfl⟩
  · exact ⟨true, rfl⟩

theorem State.unitStep_enc_accepts (h0 : s.enc.fsN = 0) (hp : s.enc.endP = false) (hin : s.host.inPend = x :: rest) :
    s.unitStep (.enc on) = State.acceptOn { s with host := { s.host with inPend := rest } } (.enc on) x :=
  State.unitStep_of_inReady hin (EncRegs.ready_iff.mpr ⟨h0, hp⟩)

theorem State.unitStep_enc_emits (h : s.enc.emit = some (x, e)) (hout : s.host.outReady = true) :
    s.unitStep (.enc on) = State.deliver { s with enc := e } x :=
  State.unitStep_of_emitOn (by rw [State.emitOn, h]) hout

end Operations

end Sys2Proof.Machine

open Sys2Proof Sys2Proof.Machine

/-- Settles O49, by the first run: `runs` answers it, and the list and its end decide it. -/
theorem runsAreTheMaximalRuns : Obligations.RunsAreTheMaximalRuns :=
  fun l => ⟨runsOf_runs l, fun _ h => h.eq_runs⟩

/-- Settles O50: the list is one run, whose frames are R112's. -/
theorem longRunsSplitAt255 : Obligations.LongRunsSplitAt255 := by
  intro v q r h1 h255
  have hruns : runs (List.replicate (255 * q + r) v) = [(v, 255 * q + r)] := by
    obtain ⟨n, hn⟩ : ∃ n, 255 * q + r = n + 1 := Nat.exists_eq_add_of_le' (by omega)
    rw [hn, ← List.append_nil (List.replicate (n + 1) v), runs_replicate_append (by simp)]
    rfl
  rw [compress, hruns, List.flatMap_singleton, frames_of_quotient v q h1 h255]

/-- Settles O51, clause by clause, each by cutting off the first frame. -/
theorem compressOutputShape : Obligations.CompressOutputShape := fun l =>
  ⟨compress_count_ne_zero l, compress_length_even l, compress_same_value_full l, compress_length_le l,
    compress_length_eq_iff l, decompress_compress l⟩

/-- Settles O55: the feed from reset, and the two halves of R123. -/
theorem encoderRefinesCompress : Obligations.EncoderRefinesCompress :=
  ⟨EncRegs.feed_reset, fun _ h3 => ⟨EncRegs.emit_of_ready, EncRegs.ready_of_emit_none h3⟩⟩

/-- Settles O34: both operations accept the byte that reaches the encoder, by the encoder's rules. -/
theorem encoderAcceptsBytes : Obligations.EncoderAcceptsBytes := by
  intro s i b c rest hi h0 hp hin
  obtain ⟨on, hexec, hc⟩ : ∃ on, exec i s = .next (s.unitStep (.enc on)) ∧ (if on then subEnc s.k b else b) = c := by
    rcases hi with ⟨rfl, rfl⟩ | ⟨rfl, rfl⟩
    · exact ⟨false, rfl, rfl⟩
    · exact ⟨true, rfl, rfl⟩
  rw [hexec, State.unitStep_enc_accepts h0 hp hin, State.acceptOn_enc_data, ← EncRegs.accept_data_eq, ← hc]
  rfl

/-- Settles O35: both operations accept the end with its status stripped. -/
theorem encoderAcceptsEnd : Obligations.EncoderAcceptsEnd := by
  intro s i st rest hi h0 hp hin
  obtain ⟨on, hexec⟩ := exec_encoder hi
  rw [hexec, State.unitStep_enc_accepts h0 hp hin, State.acceptOn_enc_eom, EncRegs.accept_eom_eq h0]

/-- Settles O36: both operations put out what the encoder emits, a value, a count or the end. -/
theorem encoderEmits : Obligations.EncoderEmits := by
  intro s i hi hout
  obtain ⟨on, hexec⟩ := exec_encoder hi
  rw [hexec]
  refine ⟨fun h2 => ?_, fun h1 => ?_, fun h0 hp => ⟨?_, fun hinv => ?_⟩⟩
  · rw [State.unitStep_enc_emits (EncRegs.emit_value h2) hout]
    rfl
  · rw [State.unitStep_enc_emits (EncRegs.emit_count h1) hout]
    rfl
  · rw [State.unitStep_enc_emits (EncRegs.emit_end h0 hp) hout]
    rfl
  · exact (EncRegs.emit_end_reset hinv (EncRegs.emit_end h0 hp)).2
end

section
/-! PROOFS. `RLE-D` and `decompress` (R131 to R144): the decoder accepts exactly where it has nothing to emit, and the two
operations on its path accept and emit as its rules say. -/

namespace Sys2Proof.Machine

section Decoder
variable {s : State} {d : DecRegs} {i : Instr} {on : Bool} {x : Sym} {rest : List Sym}

/-- R142: the two guards are each other's negation. -/
theorem DecRegs.ready_iff_emit_eq_none : d.ready = true ↔ d.emit = none :=
  ⟨DecRegs.emit_of_ready, fun h => of_not_not fun hr => DecRegs.emit_ne_none hr h⟩

/-- R135 to R137 as one chain. -/
theorem DecRegs.accept_data_eq (d : DecRegs) (b : Byte) :
    d.accept (.data b) =
      if d.ph = false then { d with fv := b, ph := true }
      else if b = 0 then { d with fv := 0, ph := false }
      else { d with rxV := d.fv, rem := b, fv := 0, ph := false } := by
  split_ifs with hph hb
  · exact DecRegs.accept_value hph b
  · subst hb
    exact DecRegs.accept_count_zero (Bool.eq_true_of_not_eq_false hph)
  · exact DecRegs.accept_count (Bool.eq_true_of_not_eq_false hph) hb

/-- R138, R139 as one chain. -/
theorem DecRegs.accept_eom_eq (d : DecRegs) (st : Byte) :
    d.accept (.eom st) =
      if d.ph = false then { d with endP := true, endSt := st }
      else { d with endP := true, endSt := statusMalformed, fv := 0, ph := false } := by
  split_ifs with hph
  · exact DecRegs.accept_end_even hph st
  · exact DecRegs.accept_end_odd (Bool.eq_true_of_not_eq_false hph) st

/-- `RLED` and `MIXD` are the unit's turn on the decoder's path, without and with `SCU` behind the decoder. -/
theorem exec_decoder (hi : i = .rled ∨ i = .mixd) : ∃ on, exec i s = .next (s.unitStep (.dec on)) := by
  rcases hi with rfl | rfl
  · exact ⟨false, rfl⟩
  · exact ⟨true, rfl⟩

theorem State.unitStep_dec_accepts (h0 : s.dec.rem = 0) (hp : s.dec.endP = false) (hin : s.host.inPend = x :: rest) :
    s.unitStep (.dec on) = State.acceptOn { s with host := { s.host with inPend := rest } } (.dec on) x :=
  State.unitStep_of_inReady hin (DecRegs.ready_iff.mpr ⟨h0, hp⟩)

theorem State.unitStep_dec_emits (h : s.dec.emit = some (x, d)) (hout : s.host.outReady = true) :
    s.unitStep (.dec on) = State.deliver { s with dec := d } (scuIf on .decode s.k x) :=
  State.unitStep_of_emitOn (by rw [State.emitOn, h]) hout

/-- `SCU` never changes an end (R90, R161). -/
theorem scuIf_eom (on : Bool) (dir : Dir) (k : Fin 26) (st : Byte) : scuIf on dir k (.eom st) = .eom st := by
  cases on <;> rfl

end Decoder

end Sys2Proof.Machine

open Sys2Proof Sys2Proof.Machine

/-- Settles O52: the inverse by cutting off the first frame, and the rule's example by evaluation. -/
theorem decompressInvertsCompress : Obligations.DecompressInvertsCompress :=
  ⟨decompress_compress, by decide, by decide⟩

/-- Settles O56: the feed from reset, and R142. -/
theorem decoderRefinesDecompress : Obligations.DecoderRefinesDecompress :=
  ⟨DecRegs.feed_reset, fun _ => DecRegs.ready_iff_emit_eq_none⟩

/-- Settles O37: both operations accept the byte as the decoder's rules say; `SCU` is not on the way in. -/
theorem decoderAcceptsBytes : Obligations.DecoderAcceptsBytes := by
  intro s i b rest hi h0 hp hin
  obtain ⟨on, hexec⟩ := exec_decoder hi
  rw [hexec, State.unitStep_dec_accepts h0 hp hin, State.acceptOn_dec_data, DecRegs.accept_data_eq]

/-- Settles O38: both operations accept the end with its status stripped. -/
theorem decoderAcceptsEnd : Obligations.DecoderAcceptsEnd := by
  intro s i st rest hi h0 hp hin
  obtain ⟨on, hexec⟩ := exec_decoder hi
  rw [hexec, State.unitStep_dec_accepts h0 hp hin, State.acceptOn_dec_eom, DecRegs.accept_eom_eq]
  rfl

/-- Settles O39: both operations put out what the decoder emits, a repetition through `SCU` under `MIXD`, or the end. -/
theorem decoderEmits : Obligations.DecoderEmits := by
  intro s i c hi hout
  obtain ⟨on, hexec, hc⟩ : ∃ on, exec i s = .next (s.unitStep (.dec on)) ∧
      scuIf on .decode s.k (.data s.dec.rxV) = .data c := by
    rcases hi with ⟨rfl, rfl⟩ | ⟨rfl, rfl⟩
    · exact ⟨false, rfl, rfl⟩
    · exact ⟨true, rfl, rfl⟩
  rw [hexec]
  refine ⟨fun hrem => ?_, fun h0 hp => ⟨?_, fun hinv => ?_⟩⟩
  · rw [State.unitStep_dec_emits (DecRegs.emit_repetition hrem) hout, hc]
    rfl
  · rw [State.unitStep_dec_emits (DecRegs.emit_end h0 hp) hout, scuIf_eom]
    rfl
  · exact (DecRegs.emit_end_reset hinv (DecRegs.emit_end h0 hp)).2
end

section
/-! PROOFS. The routing of `PIPE` (R150, R157, R160, R163): only the sequential unit on the path holds symbols or moves, so the
unit is stuck only where it has nothing to put out; a path without such a unit passes or drops the oldest symbol, or waits. -/

namespace Sys2Proof.Machine

section Routing
variable {s t : State} {p : Path} {i : Instr} {rest : List Sym}

/-! ### When a symbol waits for `out` -/

/-- R123 as an equivalence, in a state that meets R41. -/
theorem EncRegs.emit_eq_none_iff {e : EncRegs} (h : e.Inv) : e.emit = none ↔ e.fsN = 0 ∧ e.endP = false := by
  obtain ⟨-, -, hne3, -⟩ := h
  rw [← EncRegs.ready_iff]
  exact ⟨EncRegs.ready_of_emit_none hne3, EncRegs.emit_of_ready⟩

theorem State.emitOn_enc_eq_none_iff {on : Bool} : s.emitOn (.enc on) = none ↔ s.enc.emit = none := by
  rw [State.emitOn]
  cases s.enc.emit <;> simp

theorem State.emitOn_dec_eq_none_iff {on : Bool} : s.emitOn (.dec on) = none ↔ s.dec.emit = none := by
  rw [State.emitOn]
  cases s.dec.emit <;> simp

/-- A unit off the path is at its reset values, where nothing waits, so the unit on the path decides (R163). -/
theorem State.UnitsOn.emitOn_eq_none_iff (h : s.UnitsOn p) : s.emitOn p = none ↔ s.Quiescent := by
  cases p with
  | cipher | sink =>
    exact iff_of_true rfl (State.quiescent_of_reset (h.encOff (by simp)) (h.decOff (by simp)))
  | enc on =>
    have hdec : s.dec.rem = 0 ∧ s.dec.endP = false := by
      rw [h.decOff (by simp)]
      exact ⟨rfl, rfl⟩
    rw [State.emitOn_enc_eq_none_iff, EncRegs.emit_eq_none_iff h.encInv, State.Quiescent,
      and_iff_left hdec]
  | dec on =>
    have henc : s.enc.fsN = 0 ∧ s.enc.endP = false := by
      rw [h.encOff (by simp)]
      exact ⟨rfl, rfl⟩
    rw [State.emitOn_dec_eq_none_iff, ← DecRegs.ready_iff_emit_eq_none, DecRegs.ready_iff, State.Quiescent, ← and_assoc,
      and_iff_right henc]

/-! ### The units off the path (R150) -/

/-- A unit that is not on the path takes no step. -/
theorem State.UnitMove.keeps_off_path (ht : s.UnitMove p t) :
    (t.enc = s.enc ∨ ∃ on, p = .enc on) ∧ (t.dec = s.dec ∨ ∃ on, p = .dec on) := by
  cases ht with
  | wait => exact ⟨.inl rfl, .inl rfl⟩
  | @accept x =>
    cases p with
    | cipher | sink => cases x <;> exact ⟨.inl rfl, .inl rfl⟩
    | enc on => exact ⟨.inr ⟨on, rfl⟩, .inl (by cases x <;> rfl)⟩
    | dec on => exact ⟨.inl (by cases x <;> rfl), .inr ⟨on, rfl⟩⟩
  | emit he =>
    rcases State.emitOn_cases he with ⟨on, x, e, rfl, -, rfl⟩ | ⟨on, x, d, rfl, -, rfl⟩
    · obtain ⟨-, -, -, -, hdec, -⟩ := State.deliver_frame { s with enc := e } x
      exact ⟨.inr ⟨on, rfl⟩, .inl hdec⟩
    · obtain ⟨-, -, -, henc, -⟩ := State.deliver_frame { s with dec := d } (scuIf on .decode s.k x)
      exact ⟨.inl henc, .inr ⟨on, rfl⟩⟩

/-- An instruction that is no access drives symbols on the path that `OP` selects, or is an operation with its own path. -/
theorem pathUnder_cases (hi : accesses i = []) (op : BitVec 3) :
    (offered i ≠ [] ∧ pathUnder i op = pathOf op) ∨ ∃ b, i = decodeOp b ∧ pathUnder i op = pathOf b := by
  cases i with
  | data | endSym | rep => exact .inl ⟨List.cons_ne_nil _ _, rfl⟩
  | cfgWrite | cfgRead => cases hi
  | cenc => exact .inr ⟨0, rfl, rfl⟩
  | cdec => exact .inr ⟨1, rfl, rfl⟩
  | rlec => exact .inr ⟨2, rfl, rfl⟩
  | rled => exact .inr ⟨3, rfl, rfl⟩
  | mixe => exact .inr ⟨4, rfl, rfl⟩
  | mixd => exact .inr ⟨5, rfl, rfl⟩
  | rsv6 => exact .inr ⟨6, rfl, rfl⟩
  | rsv7 => exact .inr ⟨7, rfl, rfl⟩

theorem encoder_of_pathUnder {op : BitVec 3} (hi : accesses i = []) (hp : ∃ on, pathUnder i op = .enc on) :
    i = .rlec ∨ i = .mixe ∨ offered i ≠ [] ∧ (op = 2 ∨ op = 4) := by
  rcases pathUnder_cases hi op with ⟨hoff, h⟩ | ⟨b, rfl, h⟩ <;> rw [h, pathOf_enc_iff] at hp
  · exact .inr (.inr ⟨hoff, hp⟩)
  · rcases hp with rfl | rfl
    · exact .inl rfl
    · exact .inr (.inl rfl)

theorem decoder_of_pathUnder {op : BitVec 3} (hi : accesses i = []) (hp : ∃ on, pathUnder i op = .dec on) :
    i = .rled ∨ i = .mixd ∨ offered i ≠ [] ∧ (op = 3 ∨ op = 5) := by
  rcases pathUnder_cases hi op with ⟨hoff, h⟩ | ⟨b, rfl, h⟩ <;> rw [h, pathOf_dec_iff] at hp
  · exact .inr (.inr ⟨hoff, hp⟩)
  · rcases hp with rfl | rfl
    · exact .inl rfl
    · exact .inr (.inl rfl)

/-- Everything but the configuration and what the port holds is as before an access (R171, R172). -/
theorem State.serveCfg_offerCfg_eq (s : State) (c : CfgAccess) :
    (s.offerCfg c).serveCfg = { s with
      op := (s.offerCfg c).serveCfg.op
      shift := (s.offerCfg c).serveCfg.shift
      host := { s.host with
        cfgPend := (s.offerCfg c).serveCfg.host.cfgPend, rdata := (s.offerCfg c).serveCfg.host.rdata } } :=
  (s.offerCfg c).serveCfg_effect.1

/-! ### The paths without a sequential unit (R157, R160) -/

/-- R193: with nothing to emit, the unit waits while the oldest symbol offered is not accepted. -/
theorem State.unitStep_of_not_inReady (he : s.emitOn p = none)
    (h : ∀ x ∈ s.host.inPend.head?, s.inReady p x = false) : s.unitStep p = s := by
  rcases s.unitStep_cases p with ⟨u, hu, -⟩ | ⟨x, rest, -, hin, hr, -⟩ | hwait
  · cases he.symm.trans hu
  · exact absurd (hr.symm.trans (h x (by rw [hin]; rfl))) (by decide)
  · exact hwait

/-- R157: a byte passes through `SCU`. -/
theorem State.unitStep_cipher_data (dir : Dir) (hout : s.host.outReady = true) {b : Byte}
    (hin : s.host.inPend = .data b :: rest) :
    s.unitStep (.cipher dir) =
      { s with busy := true, inOff := wrap s.width (s.inOff + 1),
               host := { s.host with inPend := rest, out := s.host.out ++ [.data (sub dir s.k b)] } } := by
  rw [State.unitStep_of_inReady (p := .cipher dir) hin hout, State.acceptOn_cipher_data]
  rfl

/-- R157: an end passes with the status `0x00` and completes the message. -/
theorem State.unitStep_cipher_eom (dir : Dir) (hout : s.host.outReady = true) {st : Byte}
    (hin : s.host.inPend = .eom st :: rest) :
    s.unitStep (.cipher dir) =
      { s with busy := false, done := true, lastStatus := 0, errOffset := 0, inOff := 0,
               host := { s.host with inPend := rest, out := s.host.out ++ [.eom 0] } } := by
  rw [State.unitStep_of_inReady (p := .cipher dir) hin hout, State.acceptOn_cipher_eom]

end Routing

end Sys2Proof.Machine

open Sys2Proof Sys2Proof.Machine

/-- Settles O25: the ports' view is read off the path that `OP` selects; a unit that is not quiescent has a symbol for `out`,
and its turn delivers it. -/
theorem portViewOfGuards : Obligations.PortViewOfGuards := by
  refine ⟨fun s x => ⟨fun h => ?_, fun h => ?_, fun h => ?_, fun h => ?_⟩, fun s hinv => ?_⟩
  · rcases h with h | h <;> simp [h, pathOf, State.inReady, State.outValid]
  · rcases h with h | h <;> simp [h, pathOf, State.inReady, State.outValid, EncRegs.ready_iff]
  · rcases h with h | h <;> simp [h, pathOf, State.inReady, State.outValid, DecRegs.ready_iff]
  · have hp : pathOf s.op = .sink := by rcases h with h | h <;> rw [h] <;> rfl
    rw [hp]
    constructor
    · cases x <;> simp [State.inReady]
    · rcases hin : s.host.inPend with _ | ⟨_ | _, _⟩ <;> simp [State.outValid, hin]
  · obtain ⟨-, hunits, -⟩ := State.inv_iff.mp hinv
    refine ⟨hunits.emitOn_eq_none_iff, fun hmore hout => ?_⟩
    obtain ⟨t, he⟩ := Option.ne_none_iff_exists'.mp (mt hunits.emitOn_eq_none_iff.mp hmore)
    obtain ⟨x, hx, hhost⟩ := State.emitOn_out he
    refine ⟨t, x, ?_, hx, by rw [hhost]⟩
    rw [exec_decodeOp, State.unitStep_of_emitOn he hout]

/-- Settles O48: an instruction is a move of the unit on its path, or an access, which touches the configuration port only. -/
theorem unselectedUnitsKeepRegisters : Obligations.UnselectedUnitsKeepRegisters := by
  intro i s t h
  rcases exec_cases h with ⟨hi, hmove⟩ | ⟨c, -, -, rfl⟩
  · obtain ⟨henc, hdec⟩ := hmove.keeps_off_path
    refine ⟨fun hrlec hmixe hop => henc.resolve_right fun hp => ?_,
      fun hrled hmixd hop => hdec.resolve_right fun hp => ?_, fun haccess => ?_⟩
    · obtain ⟨hoff, hsel⟩ := ((encoder_of_pathUnder hi hp).resolve_left hrlec).resolve_left hmixe
      exact not_or.mpr (hop hoff) hsel
    · obtain ⟨hoff, hsel⟩ := ((decoder_of_pathUnder hi hp).resolve_left hrled).resolve_left hmixd
      exact not_or.mpr (hop hoff) hsel
    · rcases haccess with ⟨a, v, rfl⟩ | ⟨a, rfl⟩ <;> cases hi
  · have hframe := s.serveCfg_offerCfg_eq c
    exact ⟨fun _ _ _ => by rw [hframe], fun _ _ _ => by rw [hframe], fun _ => hframe⟩

/-- Settles O32: both operations are the unit's turn on the path through `SCU`, each in its direction. -/
theorem cipherOperationsPassSymbols : Obligations.CipherOperationsPassSymbols := by
  refine fun s rest hout => ⟨fun b hin => ⟨?_, ?_⟩, fun st hin i hi => ?_⟩
  · exact congrArg _ (State.unitStep_cipher_data .encode hout hin)
  · exact congrArg _ (State.unitStep_cipher_data .decode hout hin)
  · rcases hi with rfl | rfl
    · exact congrArg _ (State.unitStep_cipher_eom .encode hout hin)
    · exact congrArg _ (State.unitStep_cipher_eom .decode hout hin)

/-- Settles O33: `in_ready` is `out_ready` on this path, and there is nothing to emit. -/
theorem cipherOperationsWait : Obligations.CipherOperationsWait := by
  intro s i hi hwait
  have hstep (dir : Dir) : s.unitStep (.cipher dir) = s := by
    refine State.unitStep_of_not_inReady rfl fun x hx => ?_
    rcases hwait with hin | hout
    · simp [hin] at hx
    · exact hout
  rcases hi with rfl | rfl <;> exact congrArg _ (hstep _)

/-- Settles O41: both operations are the unit's turn on the path to the sink, which accepts every byte, and an end where the
consumer is ready. -/
theorem reservedOperationsDiscardAndFail : Obligations.ReservedOperationsDiscardAndFail := by
  intro s i rest hi
  have hexec : exec i s = .next (s.unitStep .sink) := by rcases hi with rfl | rfl <;> rfl
  rw [hexec]
  refine ⟨fun b hin => ?_, fun st hin hout => ?_, fun st hin hout => ?_, fun hin => ?_⟩
  · rw [State.unitStep_of_inReady hin rfl, State.acceptOn_sink_data]
  · rw [State.unitStep_of_inReady (p := .sink) hin hout, State.acceptOn_sink_eom]
    rfl
  · refine congrArg _ (State.unitStep_of_not_inReady rfl fun x hx => ?_)
    rw [hin] at hx
    cases hx
    exact hout
  · exact congrArg _ (State.unitStep_of_not_inReady rfl (by simp [hin]))
end

section
/-! PROOFS. The messages of the pipeline operations (R153 to R156): an injective substitution keeps the frames of a message
where they are, and `MIXD` undoes the two stages of `MIXE` in the opposite order. -/

namespace Sys2Proof.Machine

section Pipeline
variable {f : Byte → Byte}

theorem compress_map_frame (hf : Function.Injective f) {v n : Byte} {l : List Byte} (hn : n ≠ 0)
    (hfull : l.head? = some v → n = 255) :
    compress ((List.replicate n.toNat v ++ l).map f) = f v :: n :: compress (l.map f) := by
  rw [List.map_append, List.map_replicate]
  refine compress_frame hn fun hhead => hfull ?_
  rw [List.head?_map] at hhead
  exact Option.map_injective hf hhead

/-- Substituting before compression substitutes the value bytes and no count byte (R153). -/
theorem compress_map_getElem? (hf : Function.Injective f) (l : List Byte) : ∀ m : Nat,
    (compress (l.map f))[2 * m]? = (compress l)[2 * m]?.map f ∧
    (compress (l.map f))[2 * m + 1]? = (compress l)[2 * m + 1]? := by
  induction l using frame_induction with
  | nil => exact fun m => ⟨rfl, rfl⟩
  | frame v n l hn hfull ih =>
    rw [compress_map_frame hf hn hfull, compress_frame hn hfull]
    rintro (_ | m)
    · exact ⟨rfl, rfl⟩
    · exact ih m

theorem messageResult_mixe (k : Fin 26) (l : List Byte) : messageResult 4 k l = .ok (compress (l.map (subEnc k))) := rfl

theorem messageResult_mixd (k : Fin 26) (c : List Byte) :
    messageResult 5 k c = (decompress c).mapBytes (subDec k) := rfl

/-- R156. -/
theorem messageResult_mixd_compress (k : Fin 26) (l : List Byte) :
    messageResult 5 k (compress (l.map (subEnc k))) = .ok l := by
  rw [messageResult_mixd, decompress_compress, Result.mapBytes, Function.LeftInverse.list_map (subDec_subEnc k) l]

end Pipeline

end Sys2Proof.Machine

open Sys2Proof Sys2Proof.Machine

/-- Settles O53: `SUB_ENC(K, ·)` has an inverse, so it is injective and the frames stay where they are. -/
theorem mixeSubstitutesOnlyValueBytes : Obligations.MixeSubstitutesOnlyValueBytes := fun k _ l =>
  ⟨compress_map_getElem? (Function.LeftInverse.injective (subDec_subEnc k)) l, rfl, rfl⟩

/-- Settles O54: equal residues are one `K`, and `MIXD` undoes the compression and then the substitution. -/
theorem pipelineRoundTrip : Obligations.PipelineRoundTrip := by
  intro w v u l c hk h
  rw [messageResult_mixe, hk] at h
  obtain rfl := Result.ok.inj h
  exact messageResult_mixd_compress _ l
end

section
/-! PROOFS. The configuration port (R170 to R176): which of the accesses offered is performed, in what order, and what a
write stores and a read returns. -/

namespace Sys2Proof.Machine

section ConfigPort
variable {s : State} {c x : CfgAccess} {rest : List CfgAccess}

/-! ### When an access is performed (R170, R173) -/

theorem exec_instr (x : CfgAccess) (s : State) : exec x.instr s = .next (s.offerCfg x).serveCfg := by
  cases x with
  | write a v => exact exec_cfgWrite a v s
  | read a => exact exec_cfgRead a s

theorem State.cfgReady_iff : s.cfgReady c = true ↔ (∃ a, c = .read a) ∨ s.busy = false := by
  cases c <;> simp [State.cfgReady]

theorem State.not_cfgReady_iff : ¬ s.cfgReady c = true ↔ (∃ a v, c = .write a v) ∧ s.busy = true := by
  cases c <;> simp [State.cfgReady]

theorem State.serveCfg_of_ready (hc : s.host.cfgPend = c :: rest) (hr : s.cfgReady c = true) :
    s.serveCfg = State.perform { s with host := { s.host with cfgPend := rest } } c := by
  rw [State.serveCfg_cons hc, if_pos hr]

/-- The port holds its oldest access: no access behind it is performed either. -/
theorem State.serveCfg_of_not_ready (hc : s.host.cfgPend = c :: rest) (hr : ¬ s.cfgReady c = true) : s.serveCfg = s := by
  rw [State.serveCfg_cons hc, if_neg hr]

/-- What an access does does not depend on the accesses that wait behind it. -/
theorem State.perform_with_cfgPend (s : State) (l : List CfgAccess) (c : CfgAccess) :
    State.perform { s with host := { s.host with cfgPend := l } } c =
      { s.perform c with host := { (s.perform c).host with cfgPend := l } } := by
  cases c with
  | read a => rfl
  | write a v =>
    simp only [State.perform, State.cfgStore_eq]
    split_ifs <;> rfl

/-- An access offered behind one that can be performed waits, and the earlier one is performed. -/
theorem State.serveCfg_offerCfg_behind (hc : s.host.cfgPend = c :: rest) (hr : s.cfgReady c = true) (x : CfgAccess) :
    (s.offerCfg x).serveCfg =
      { s.perform c with host := { (s.perform c).host with cfgPend := rest ++ [x] } } := by
  have hpend : (s.offerCfg x).host.cfgPend = c :: (rest ++ [x]) := by simp [hc]
  rw [State.serveCfg_of_ready hpend hr]
  exact State.perform_with_cfgPend s _ c

/-- An access offered with none before it is performed at once. -/
theorem State.serveCfg_offerCfg_alone (hc : s.host.cfgPend = []) (hr : s.cfgReady c = true) :
    (s.offerCfg c).serveCfg = s.perform c := by
  have hpend : (s.offerCfg c).host.cfgPend = [c] := by simp [hc]
  have hself : { s with host := { s.host with cfgPend := [] } } = s := by rw [← hc]
  rw [State.serveCfg_of_ready hpend hr]
  exact congrArg (State.perform · c) hself

/-! ### The values of a read (R29, R172) -/

/-- `STATUS` as the sum of its three fields. -/
theorem State.statusWord_eq (s : State) :
    s.statusWord = 256 * s.lastStatus.toNat + (if s.done then 2 else 0) + (if s.busy then 1 else 0) := by
  simp only [State.statusWord, toNat_append_eq_add, BitVec.toNat_ofBool]
  cases s.done <;> cases s.busy <;> simp <;> ring

/-- `KRES`: the shift as two's complement, floor modulo 26 (R23). -/
theorem State.k_val (s : State) : s.k.val = ((BitVec.ofNat s.width s.shift).toInt % 26).toNat := rfl

/-- The map of R29 as the chain of its indices. -/
theorem State.cfgValue_eq (s : State) (a : CfgIndex) :
    s.cfgValue a =
      if a = 0 then s.op.toNat else if a = 1 then s.shift else if a = 2 then s.statusWord
      else if a = 3 then s.errOffset else if a = 4 then s.k.val else 0 := by
  fin_cases a <;> rfl

end ConfigPort

end Sys2Proof.Machine

open Sys2Proof Sys2Proof.Machine

/-- Settles O19: the port looks at the oldest access only, and what that one does does not depend on those behind it. -/
theorem cfgAccessesKeepOrder : Obligations.CfgAccessesKeepOrder := by
  intro s c x rest hc
  refine ⟨fun hwrite hbusy => ?_, fun hready u hu => ?_⟩
  · have hr : ¬ s.cfgReady c = true := State.not_cfgReady_iff.mpr ⟨hwrite, hbusy⟩
    have hpend : (s.offerCfg x).host.cfgPend = c :: (rest ++ [x]) := by simp [hc]
    rw [exec_instr, State.serveCfg_of_not_ready hpend hr, State.offerCfg, hc, List.cons_append]
  · have hr : s.cfgReady c = true := State.cfgReady_iff.mpr hready
    rw [exec_instr, State.serveCfg_offerCfg_alone (s := { s with host := { s.host with cfgPend := [] } }) rfl hr,
      State.perform_with_cfgPend] at hu
    obtain rfl := Host.Outcome.next.inj hu
    rw [exec_instr, State.serveCfg_offerCfg_behind hc hr]

/-- Settles O18: a write with none before it is performed exactly when `BUSY = 0`. -/
theorem cfgWriteStoresOrIsHeld : Obligations.CfgWriteStoresOrIsHeld := by
  intro s a v hc
  refine ⟨fun hidle => ?_, fun hbusy => ?_⟩
  · rw [exec_cfgWrite, State.serveCfg_offerCfg_alone hc (State.cfgReady_iff.mpr (.inr hidle))]
    exact congrArg _ (State.cfgStore_eq s a v)
  · have hr : ¬ s.cfgReady (.write a v) = true := State.not_cfgReady_iff.mpr ⟨⟨a, v, rfl⟩, hbusy⟩
    have hpend : (s.offerCfg (.write a v)).host.cfgPend = [.write a v] := by simp [hc]
    rw [exec_cfgWrite, State.serveCfg_of_not_ready hpend hr, State.offerCfg, hc, List.nil_append]

/-- Settles O20: the port is ready for a read in every state; `STATUS` and `KRES` are computed, the others stored. -/
theorem cfgReadReturnsRegister : Obligations.CfgReadReturnsRegister := by
  intro s a hc
  rw [exec_cfgRead, State.serveCfg_offerCfg_alone hc (State.cfgReady_iff.mpr (.inl ⟨a, rfl⟩)), State.perform,
    State.cfgValue_eq, State.statusWord_eq, State.k_val]

/-- Settles O21: the port's turn is given by the schedule, or taken by the default order because a write can be performed
once `BUSY = 0`. -/
theorem heldWriteRunsWhenBusyClears : Obligations.HeldWriteRunsWhenBusyClears := by
  intro s a v rest hc hidle hturn
  have hr : s.cfgReady (.write a v) = true := State.cfgReady_iff.mpr (.inr hidle)
  have hport : s.nextTurn.1 = .port := by
    rcases hturn with hnil | hgiven
    · rw [State.nextTurn_of_nil hnil]
      simp [State.defaultTurn, State.portEnabled, hc, hr]
    · exact State.nextTurn_of_head hgiven
  rw [step_port hport, State.serveCfg_of_ready (s := s.popTurn) hc hr, State.perform, State.cfgStore_eq]
  by_cases h0 : a = 0
  · subst h0; rfl
  · by_cases h1 : a = 1
    · subst h1; rfl
    · simp only [if_neg h0, if_neg h1]; rfl
end

section
/-! PROOFS. What no step leaves out (R184, R194): every step answers a state, and the record follows the symbol that the step
puts on `out`. -/

namespace Sys2Proof.Machine

section Exceptions
variable {s t u : State}

/-! ### No state is stuck (R184, R189) -/

/-- An instruction is a turn of the unit, a transfer on `in` or a turn of the port, and each of these is a function. -/
theorem exec_answers (i : Instr) (s : State) : ∃ t, exec i s = .next t := by
  cases i with
  | cenc | cdec | rlec | rled | mixe | mixd | rsv6 | rsv7 => exact ⟨_, rfl⟩
  | data | endSym | rep => exact ⟨_, exec_drive (by simp [offered]) s⟩
  | cfgWrite a v => exact ⟨_, exec_cfgWrite a v s⟩
  | cfgRead a => exact ⟨_, exec_cfgRead a s⟩

/-! ### The record and what is put on `out` (R152, R194) -/

/-- Nothing was put on `out` between two states, and the record is the same. -/
def State.Silent (s t : State) : Prop :=
  t.host.out = s.host.out ∧ s.SameRecord t

/-- Of all that is done between two states, only the delivery of one symbol, done last, can touch `out` or the record. -/
inductive State.Puts (s : State) : State → Prop where
  | nothing {t : State} (h : s.Silent t) : State.Puts s t
  | symbol {v : State} (h : s.Silent v) (x : Sym) : State.Puts s (v.deliver x)

theorem State.Silent.trans (h : s.Silent u) (h' : u.Silent t) : s.Silent t := by
  obtain ⟨hout, hdone, hstatus, hoff⟩ := h
  obtain ⟨hout', hdone', hstatus', hoff'⟩ := h'
  exact ⟨hout'.trans hout, hdone'.trans hdone, hstatus'.trans hstatus, hoff'.trans hoff⟩

theorem State.Silent.puts (h : s.Silent u) (h' : u.Puts t) : s.Puts t := by
  cases h' with
  | nothing h' => exact .nothing (h.trans h')
  | symbol h' x => exact .symbol (h.trans h') x

/-- R151: noting an accepted symbol touches neither `out` nor the record. -/
theorem State.noteAccept_silent (s : State) (x : Sym) : s.Silent (s.noteAccept x) := by
  cases x <;> exact ⟨rfl, rfl, rfl, rfl⟩

theorem State.serveCfg_silent (s : State) : s.Silent s.serveCfg := by
  rw [s.serveCfg_effect.1]
  exact ⟨rfl, rfl, rfl, rfl⟩

theorem State.HostMove.silent (h : s.HostMove u) : s.Silent u := by
  cases h with
  | move host _ hout => exact ⟨hout, rfl, rfl, rfl⟩

/-- A path without a sequential unit delivers what it accepts, but the bytes that the sink discards; the others hold it. -/
theorem State.acceptOn_puts (s : State) (p : Path) (x : Sym) : s.Puts (s.acceptOn p x) := by
  cases p with
  | cipher dir => exact .symbol (s.noteAccept_silent x) _
  | enc on => exact .nothing (s.noteAccept_silent x)
  | dec on => exact .nothing (s.noteAccept_silent x)
  | sink =>
    cases x with
    | data b => exact .nothing (s.noteAccept_silent (.data b))
    | eom st => exact .symbol (s.noteAccept_silent (.eom st)) (.eom statusIllegalOp)

theorem State.emitOn_puts {p : Path} (he : s.emitOn p = some t) : s.Puts t := by
  rcases State.emitOn_cases he with ⟨_, x, e, -, -, rfl⟩ | ⟨_, x, d, -, -, rfl⟩
  · exact .symbol (s := s) (v := { s with enc := e }) ⟨rfl, rfl, rfl, rfl⟩ x
  · exact .symbol (s := s) (v := { s with dec := d }) ⟨rfl, rfl, rfl, rfl⟩ _

theorem State.UnitMove.puts {p : Path} (h : s.UnitMove p t) : s.Puts t := by
  cases h with
  | wait => exact .nothing ⟨rfl, rfl, rfl, rfl⟩
  | @accept x rest =>
    exact State.Silent.puts (u := { s with host := { s.host with inPend := rest } }) ⟨rfl, rfl, rfl, rfl⟩
      (State.acceptOn_puts _ p x)
  | emit he => exact State.emitOn_puts he

/-- R194 for every step but reset: the host's and the port's moves are silent, and the unit delivers at most one symbol. -/
theorem step_puts (h : step s = .next t) : s.ResetIsNext ∨ s.Puts t := by
  rcases step_cases h with hreset | ⟨u, hhost, hunit | rfl⟩
  · exact .inl hreset
  · exact .inr (hhost.silent.puts hunit.puts)
  · exact .inr (.nothing (hhost.silent.trans u.serveCfg_silent))

end Exceptions

end Sys2Proof.Machine

open Sys2Proof Sys2Proof.Machine

/-- Settles O23: of what a step delivers, a byte leaves the record as it was and an end writes its status into it. -/
theorem recordChangesOnlyAtEndOrReset : Obligations.RecordChangesOnlyAtEndOrReset := by
  intro s t h
  refine (step_puts h).imp_right fun hputs => ?_
  cases hputs with
  | nothing hsilent =>
    obtain ⟨hout, hrecord⟩ := hsilent
    exact ⟨[], by rw [hout, List.append_nil], fun _ => hrecord, fun early st late hnew => by simp at hnew⟩
  | @symbol v hsilent x =>
    obtain ⟨hout, hrecord⟩ := hsilent
    obtain ⟨-, -, -, -, -, hhost⟩ := State.deliver_frame v x
    refine ⟨[x], by rw [hhost, ← hout], fun hbyte => ?_, fun early st late hnew _ => ?_⟩
    · cases x with
      | data b => exact hrecord
      | eom st => exact absurd (List.mem_singleton_self _) (hbyte st)
    · have hmem : Sym.eom st ∈ [x] := hnew ▸ List.mem_append_right early List.mem_cons_self
      obtain rfl := List.mem_singleton.mp hmem
      exact ⟨rfl, rfl⟩

/-- Settles O10: whichever agent has the turn, an equation says what the step is, and an instruction that it runs
answers a state. -/
theorem stepAlwaysAnswersNext : Obligations.StepAlwaysAnswersNext := by
  intro s
  rcases hturn : s.nextTurn.1 with _ | _ | _
  case unit => exact step_unit hturn ▸ exec_answers _ _
  case port => exact ⟨_, step_port hturn⟩
  case host =>
    rcases hs : s.host.script with _ | ⟨_ | _ | b, rest⟩
    case nil => exact ⟨_, step_host_nil hturn hs⟩
    case cons.word w => exact step_host_word hturn hs ▸ exec_answers _ _
    case cons.reset =>
      obtain ⟨x, hx⟩ := step_reset ⟨hturn, by rw [hs]; rfl⟩
      exact ⟨_, hx⟩
    case cons.ready => exact ⟨_, step_host_ready hturn hs⟩
end

section
/-! PROOFS. The reset event as the host's turn (R201, R202), and a message straight after it (R204): `OP` selects the path
through `SCU` and `K` is 0, so each step passes one symbol unchanged. -/

namespace Sys2Proof.Machine

variable {s : State}

/-! ### The reset event -/

/-- The host's turn with `RESET` next in its script is the reset event, with the turn and the action taken. -/
theorem step_host_reset (h : s.nextTurn.1 = .host) {rest : List HostAction} (hs : s.host.script = .reset :: rest) :
    step s = .next (State.resetEvent
      { s with host := { s.host with script := rest, sched := s.host.sched.tail } }) := by
  rw [step, State.nextTurn_eq, h]
  simp [State.nextAction, State.popTurn, hs]

/-- R23 right after reset. -/
theorem State.k_resetWith (w : Nat) (h : HostSide) : (State.resetWith w h).k = 0 :=
  Fin.ext (State.cfgValue_reset w h 4)

/-! ### A message through `SCU` -/

/-- R157 over a whole message: with a host that only receives, each step passes one symbol, and the end leaves no trace of
the count that the bytes left in `IN_OFF`. -/
theorem run_cipher_message {dir : Dir} (hpath : pathOf s.op = .cipher dir) (hhost : s.host.OnlyReceives) {l : List Byte}
    (hin : s.host.inPend = messageSyms l) :
    Sys2Proof.core.run (l.length + 1) s = .next
      { s with busy := false, done := true, lastStatus := 0, errOffset := 0, inOff := 0,
               host := { s.host with inPend := [], out := s.host.out ++ messageSyms (l.map (sub dir s.k)) } } := by
  induction l generalizing s with
  | nil =>
    rw [run_succ_of_step (M := Sys2Proof.core) (step_of_onlyReceives hhost), hpath,
      State.unitStep_cipher_eom dir hhost.outReady hin]
    rfl
  | cons b l ih =>
    have hpassed := State.unitStep_cipher_data dir hhost.outReady hin
    have hrest := ih (s := s.unitStep (.cipher dir)) (by rw [hpassed]; exact hpath) (hhost.unitStep _)
      (by rw [hpassed]; rfl)
    rw [List.length_cons, run_succ_of_step (M := Sys2Proof.core) (step_of_onlyReceives hhost), hpath, hrest, hpassed]
    simp [messageSyms, State.k]

end Sys2Proof.Machine

open Sys2Proof Sys2Proof.Machine

/-- Settles O13: the path after reset is that of `CENC`, and substitution by a `K` of 0 is the identity. -/
theorem messageAfterResetPassesUnchanged : Obligations.MessageAfterResetPassesUnchanged := by
  intro w l
  have hsub : l.map (sub .encode 0) = l := (List.map_congr_left fun b _ => subEnc_zero b).trans l.map_id
  rw [run_cipher_message (dir := .encode) rfl ⟨rfl, rfl, rfl, rfl⟩ rfl, State.k_resetWith, hsub]
  rfl

/-- Settles O11: the reset event writes all 21 fields and takes its turn and its action off the host's side. -/
theorem resetEventClearsEveryField : Obligations.ResetEventClearsEveryField := by
  intro s hreset
  obtain ⟨hturn, hhead⟩ := hreset
  obtain ⟨rest, hscript⟩ := List.head?_eq_some_iff.mp hhead
  rw [step_host_reset hturn hscript, hscript]
  rfl
end
